-- ==== Sys2Proof/Word.lean ====
section
/-! DEFINITION. The bit vectors of the machine: words, half-words, bytes and register numbers
(00_scope.md R6, R10; 10_state.md R20, R22). -/

namespace Sys2Proof

/-- A machine word: a register, the program counter, an address (XLEN = 32, R6). -/
abbrev Word := BitVec 32

/-- Two bytes. -/
abbrev Half := BitVec 16

/-- One byte of memory. -/
abbrev Byte := BitVec 8

/-- A register number: a 5-bit field of the instruction word, so every value is valid (R22). -/
abbrev RegIdx := BitVec 5

end Sys2Proof
end

