-- ==== Sys2Proof/Decode.lean ====
section
/-! DEFINITION. The decoder, the dispatch tables and the encoder (30_encoding.md R70 to R91).
The decoder is total; a word with no mapping is rejected under the name of its case of R87. -/

namespace Sys2Proof

/-! ## Fields (R71) -/

def opcodeOf (w : Word) : BitVec 7 := w.extractLsb' 0 7
def rdOf (w : Word) : RegIdx := w.extractLsb' 7 5
def funct3Of (w : Word) : BitVec 3 := w.extractLsb' 12 3
def rs1Of (w : Word) : RegIdx := w.extractLsb' 15 5
def rs2Of (w : Word) : RegIdx := w.extractLsb' 20 5
def funct7Of (w : Word) : BitVec 7 := w.extractLsb' 25 7

/-! ## Immediate fields, put together but not yet extended (R73 to R78) -/

/-- `inst[31:20]` (R73). -/
def immFieldI (w : Word) : BitVec 12 := w.extractLsb' 20 12
/-- `inst[31:25]` above `inst[11:7]` (R74). -/
def immFieldS (w : Word) : BitVec 12 := w.extractLsb' 25 7 ++ w.extractLsb' 7 5
/-- `inst[31], inst[7], inst[30:25], inst[11:8], 0` (R75). -/
def immFieldB (w : Word) : BitVec 13 :=
  w.extractLsb' 31 1 ++ w.extractLsb' 7 1 ++ w.extractLsb' 25 6 ++ w.extractLsb' 8 4 ++ 0#1
/-- `inst[31:12]` (R76). -/
def immFieldU (w : Word) : BitVec 20 := w.extractLsb' 12 20
/-- `inst[31], inst[19:12], inst[20], inst[30:21], 0` (R77). -/
def immFieldJ (w : Word) : BitVec 21 :=
  w.extractLsb' 31 1 ++ w.extractLsb' 12 8 ++ w.extractLsb' 20 1 ++ w.extractLsb' 21 10 ++ 0#1
/-- The bits above the opcode, which FENCE and SYSTEM do not interpret (R86). -/
def restOf (w : Word) : BitVec 25 := w.extractLsb' 7 25

/-! ## The immediates as 32-bit words (R73 to R77) -/

/-- `sext_12` (R73). -/
def immI (f : BitVec 12) : Word := f.signExtend 32
/-- `sext_12` (R74). -/
def immS (f : BitVec 12) : Word := f.signExtend 32
/-- `sext_13` (R75). -/
def immB (f : BitVec 13) : Word := f.signExtend 32
/-- The 20-bit field above twelve zeros (R76). -/
def immU (f : BitVec 20) : Word := f ++ 0#12
/-- `sext_21` (R77). -/
def immJ (f : BitVec 21) : Word := f.signExtend 32

/-- What the decoder returns for every word: six fields, five immediates, the shift amount (R79). -/
structure Fields where
  opcode : BitVec 7
  rd : RegIdx
  funct3 : BitVec 3
  rs1 : RegIdx
  rs2 : RegIdx
  funct7 : BitVec 7
  immI : Word
  immS : Word
  immB : Word
  immU : Word
  immJ : Word
  shamt : BitVec 5
  deriving DecidableEq, Repr

/-- The decoder of R79: total, pure, the same for every word. -/
def decodeFields (w : Word) : Fields where
  opcode := opcodeOf w
  rd := rdOf w
  funct3 := funct3Of w
  rs1 := rs1Of w
  rs2 := rs2Of w
  funct7 := funct7Of w
  immI := Sys2Proof.immI (immFieldI w)
  immS := Sys2Proof.immS (immFieldS w)
  immB := Sys2Proof.immB (immFieldB w)
  immU := Sys2Proof.immU (immFieldU w)
  immJ := Sys2Proof.immJ (immFieldJ w)
  shamt := rs2Of w

/-! ## Dispatch (R80 to R87) -/

/-- Why a word has no mapping: the seven cases of R87, and bytes too few for a word (R70). -/
inductive Reject where
  /-- Case 1: the opcode is none of the eleven of R80. -/
  | unknownOpcode
  /-- Case 2: opcode 0x33, (funct3, funct7) not in the table of R81. -/
  | opFunct
  /-- Case 3: opcode 0x13, funct3 1, funct7 not 0. -/
  | shiftLeftFunct7
  /-- Case 4: opcode 0x13, funct3 5, funct7 neither 0 nor 0x20. -/
  | shiftRightFunct7
  /-- Case 5: opcode 0x03, funct3 3, 6 or 7. -/
  | loadFunct3
  /-- Case 6: opcode 0x23, funct3 3 to 7. -/
  | storeFunct3
  /-- Case 7: opcode 0x63, funct3 2 or 3. -/
  | branchFunct3
  /-- Fewer than four bytes were given: every instruction is four bytes (R70). No fetch gives this. -/
  | truncated
  deriving DecidableEq, Repr

/-- The OP group, opcode 0x33 (R81). -/
def dispatchOp (w : Word) : Except Reject Instr :=
  match funct3Of w, funct7Of w with
  | 0b000#3, 0b0000000#7 => .ok (.add (rdOf w) (rs1Of w) (rs2Of w))
  | 0b000#3, 0b0100000#7 => .ok (.sub (rdOf w) (rs1Of w) (rs2Of w))
  | 0b001#3, 0b0000000#7 => .ok (.sll (rdOf w) (rs1Of w) (rs2Of w))
  | 0b010#3, 0b0000000#7 => .ok (.slt (rdOf w) (rs1Of w) (rs2Of w))
  | 0b011#3, 0b0000000#7 => .ok (.sltu (rdOf w) (rs1Of w) (rs2Of w))
  | 0b100#3, 0b0000000#7 => .ok (.xor (rdOf w) (rs1Of w) (rs2Of w))
  | 0b101#3, 0b0000000#7 => .ok (.srl (rdOf w) (rs1Of w) (rs2Of w))
  | 0b101#3, 0b0100000#7 => .ok (.sra (rdOf w) (rs1Of w) (rs2Of w))
  | 0b110#3, 0b0000000#7 => .ok (.or (rdOf w) (rs1Of w) (rs2Of w))
  | 0b111#3, 0b0000000#7 => .ok (.and (rdOf w) (rs1Of w) (rs2Of w))
  | _, _ => .error .opFunct

/-- The OP-IMM group, opcode 0x13 (R82). -/
def dispatchOpImm (w : Word) : Except Reject Instr :=
  match funct3Of w with
  | 0b000#3 => .ok (.addi (rdOf w) (rs1Of w) (immFieldI w))
  | 0b010#3 => .ok (.slti (rdOf w) (rs1Of w) (immFieldI w))
  | 0b011#3 => .ok (.sltiu (rdOf w) (rs1Of w) (immFieldI w))
  | 0b100#3 => .ok (.xori (rdOf w) (rs1Of w) (immFieldI w))
  | 0b110#3 => .ok (.ori (rdOf w) (rs1Of w) (immFieldI w))
  | 0b111#3 => .ok (.andi (rdOf w) (rs1Of w) (immFieldI w))
  | 0b001#3 =>
    match funct7Of w with
    | 0b0000000#7 => .ok (.slli (rdOf w) (rs1Of w) (rs2Of w))
    | _ => .error .shiftLeftFunct7
  | _ =>
    match funct7Of w with
    | 0b0000000#7 => .ok (.srli (rdOf w) (rs1Of w) (rs2Of w))
    | 0b0100000#7 => .ok (.srai (rdOf w) (rs1Of w) (rs2Of w))
    | _ => .error .shiftRightFunct7

/-- The LOAD group, opcode 0x03 (R83). -/
def dispatchLoad (w : Word) : Except Reject Instr :=
  match funct3Of w with
  | 0b000#3 => .ok (.lb (rdOf w) (rs1Of w) (immFieldI w))
  | 0b001#3 => .ok (.lh (rdOf w) (rs1Of w) (immFieldI w))
  | 0b010#3 => .ok (.lw (rdOf w) (rs1Of w) (immFieldI w))
  | 0b100#3 => .ok (.lbu (rdOf w) (rs1Of w) (immFieldI w))
  | 0b101#3 => .ok (.lhu (rdOf w) (rs1Of w) (immFieldI w))
  | _ => .error .loadFunct3

/-- The STORE group, opcode 0x23 (R84). -/
def dispatchStore (w : Word) : Except Reject Instr :=
  match funct3Of w with
  | 0b000#3 => .ok (.sb (rs1Of w) (rs2Of w) (immFieldS w))
  | 0b001#3 => .ok (.sh (rs1Of w) (rs2Of w) (immFieldS w))
  | 0b010#3 => .ok (.sw (rs1Of w) (rs2Of w) (immFieldS w))
  | _ => .error .storeFunct3

/-- The BRANCH group, opcode 0x63 (R85). -/
def dispatchBranch (w : Word) : Except Reject Instr :=
  match funct3Of w with
  | 0b000#3 => .ok (.beq (rs1Of w) (rs2Of w) (immFieldB w))
  | 0b001#3 => .ok (.bne (rs1Of w) (rs2Of w) (immFieldB w))
  | 0b100#3 => .ok (.blt (rs1Of w) (rs2Of w) (immFieldB w))
  | 0b101#3 => .ok (.bge (rs1Of w) (rs2Of w) (immFieldB w))
  | 0b110#3 => .ok (.bltu (rs1Of w) (rs2Of w) (immFieldB w))
  | 0b111#3 => .ok (.bgeu (rs1Of w) (rs2Of w) (immFieldB w))
  | _ => .error .branchFunct3

/-- The instruction a word selects, or the case of R87 it falls under (R80, R86, R91). -/
def decode (w : Word) : Except Reject Instr :=
  match opcodeOf w with
  | 0b0110011#7 => dispatchOp w
  | 0b0010011#7 => dispatchOpImm w
  | 0b0000011#7 => dispatchLoad w
  | 0b0100011#7 => dispatchStore w
  | 0b1100011#7 => dispatchBranch w
  | 0b1101111#7 => .ok (.jal (rdOf w) (immFieldJ w))
  | 0b1100111#7 => .ok (.jalr (rdOf w) (rs1Of w) (immFieldI w) (funct3Of w))
  | 0b0110111#7 => .ok (.lui (rdOf w) (immFieldU w))
  | 0b0010111#7 => .ok (.auipc (rdOf w) (immFieldU w))
  | 0b0001111#7 => .ok (.fence (restOf w))
  | 0b1110011#7 => .ok (.system (restOf w))
  | _ => .error .unknownOpcode

/-- The decoder over a stream of bytes: a word is four bytes, the least significant first
(R70; 20_memory.md R44), and the rest of the stream is handed back. -/
def decodeBytes : List Byte → Except Reject (Instr × List Byte)
  | b0 :: b1 :: b2 :: b3 :: rest =>
    match decode (b3 ++ b2 ++ b1 ++ b0) with
    | .ok i => .ok (i, rest)
    | .error e => .error e
  | _ => .error .truncated

/-- The four bytes of a word as an image holds them (70_reset_and_hazards.md R252). -/
def wordBytes (w : Word) : List Byte :=
  [w.extractLsb' 0 8, w.extractLsb' 8 8, w.extractLsb' 16 8, w.extractLsb' 24 8]

/-- The word whose low `nbits` bits are those of `w`, the rest zero. -/
def tableWord (nbits w : Nat) : Word := BitVec.ofNat 32 (w % 2 ^ nbits)

/-- The instruction the decoder reads from the word `tableWord nbits w` laid out in memory order. -/
def decodeTableWord (nbits w : Nat) : Option Instr :=
  match decodeBytes (wordBytes (tableWord nbits w)) with
  | .ok (i, _) => some i
  | .error _ => none

/-! ## The encoder: the six formats (R72) -/

def encodeR (funct7 : BitVec 7) (rs2 rs1 : RegIdx) (funct3 : BitVec 3) (rd : RegIdx)
    (opcode : BitVec 7) : Word :=
  funct7 ++ rs2 ++ rs1 ++ funct3 ++ rd ++ opcode

def encodeI (imm : BitVec 12) (rs1 : RegIdx) (funct3 : BitVec 3) (rd : RegIdx)
    (opcode : BitVec 7) : Word :=
  imm ++ rs1 ++ funct3 ++ rd ++ opcode

def encodeS (imm : BitVec 12) (rs2 rs1 : RegIdx) (funct3 : BitVec 3) (opcode : BitVec 7) : Word :=
  imm.extractLsb' 5 7 ++ rs2 ++ rs1 ++ funct3 ++ imm.extractLsb' 0 5 ++ opcode

def encodeB (off : BitVec 13) (rs2 rs1 : RegIdx) (funct3 : BitVec 3) (opcode : BitVec 7) : Word :=
  off.extractLsb' 12 1 ++ off.extractLsb' 5 6 ++ rs2 ++ rs1 ++ funct3 ++
    off.extractLsb' 1 4 ++ off.extractLsb' 11 1 ++ opcode

def encodeU (imm : BitVec 20) (rd : RegIdx) (opcode : BitVec 7) : Word :=
  imm ++ rd ++ opcode

def encodeJ (off : BitVec 21) (rd : RegIdx) (opcode : BitVec 7) : Word :=
  off.extractLsb' 20 1 ++ off.extractLsb' 1 10 ++ off.extractLsb' 11 1 ++ off.extractLsb' 12 8 ++
    rd ++ opcode

/-- The word of an instruction (R72 and the tables R80 to R86). -/
def encode : Instr → Word
  | .add rd rs1 rs2 => encodeR 0b0000000 rs2 rs1 0b000 rd 0x33
  | .sub rd rs1 rs2 => encodeR 0b0100000 rs2 rs1 0b000 rd 0x33
  | .sll rd rs1 rs2 => encodeR 0b0000000 rs2 rs1 0b001 rd 0x33
  | .slt rd rs1 rs2 => encodeR 0b0000000 rs2 rs1 0b010 rd 0x33
  | .sltu rd rs1 rs2 => encodeR 0b0000000 rs2 rs1 0b011 rd 0x33
  | .xor rd rs1 rs2 => encodeR 0b0000000 rs2 rs1 0b100 rd 0x33
  | .srl rd rs1 rs2 => encodeR 0b0000000 rs2 rs1 0b101 rd 0x33
  | .sra rd rs1 rs2 => encodeR 0b0100000 rs2 rs1 0b101 rd 0x33
  | .or rd rs1 rs2 => encodeR 0b0000000 rs2 rs1 0b110 rd 0x33
  | .and rd rs1 rs2 => encodeR 0b0000000 rs2 rs1 0b111 rd 0x33
  | .addi rd rs1 imm => encodeI imm rs1 0b000 rd 0x13
  | .slti rd rs1 imm => encodeI imm rs1 0b010 rd 0x13
  | .sltiu rd rs1 imm => encodeI imm rs1 0b011 rd 0x13
  | .xori rd rs1 imm => encodeI imm rs1 0b100 rd 0x13
  | .ori rd rs1 imm => encodeI imm rs1 0b110 rd 0x13
  | .andi rd rs1 imm => encodeI imm rs1 0b111 rd 0x13
  | .slli rd rs1 shamt => encodeR 0b0000000 shamt rs1 0b001 rd 0x13
  | .srli rd rs1 shamt => encodeR 0b0000000 shamt rs1 0b101 rd 0x13
  | .srai rd rs1 shamt => encodeR 0b0100000 shamt rs1 0b101 rd 0x13
  | .lb rd rs1 imm => encodeI imm rs1 0b000 rd 0x03
  | .lh rd rs1 imm => encodeI imm rs1 0b001 rd 0x03
  | .lw rd rs1 imm => encodeI imm rs1 0b010 rd 0x03
  | .lbu rd rs1 imm => encodeI imm rs1 0b100 rd 0x03
  | .lhu rd rs1 imm => encodeI imm rs1 0b101 rd 0x03
  | .sb rs1 rs2 imm => encodeS imm rs2 rs1 0b000 0x23
  | .sh rs1 rs2 imm => encodeS imm rs2 rs1 0b001 0x23
  | .sw rs1 rs2 imm => encodeS imm rs2 rs1 0b010 0x23
  | .beq rs1 rs2 off => encodeB off rs2 rs1 0b000 0x63
  | .bne rs1 rs2 off => encodeB off rs2 rs1 0b001 0x63
  | .blt rs1 rs2 off => encodeB off rs2 rs1 0b100 0x63
  | .bge rs1 rs2 off => encodeB off rs2 rs1 0b101 0x63
  | .bltu rs1 rs2 off => encodeB off rs2 rs1 0b110 0x63
  | .bgeu rs1 rs2 off => encodeB off rs2 rs1 0b111 0x63
  | .jal rd off => encodeJ off rd 0x6F
  | .jalr rd rs1 imm ignored => encodeI imm rs1 ignored rd 0x67
  | .lui rd imm => encodeU imm rd 0x37
  | .auipc rd imm => encodeU imm rd 0x17
  | .fence ignored => ignored ++ 0x0F#7
  | .system payload => payload ++ 0x73#7

/-! ## The opcode table as masks and values (R91) -/

/-- A row of the opcode table: a word `w` selects the row when `w &&& mask = value`. -/
structure OpcodeRow where
  mask : Word
  value : Word
  deriving DecidableEq, Repr

/-- The word selects the row. -/
abbrev OpcodeRow.selects (r : OpcodeRow) (w : Word) : Prop := w &&& r.mask = r.value

/-- The row of an instruction, from the `match` and `mask` of its own rule. -/
def Instr.row : Instr → OpcodeRow
  | .add _ _ _ => ⟨0xFE00707F, 0x00000033⟩
  | .sub _ _ _ => ⟨0xFE00707F, 0x40000033⟩
  | .sll _ _ _ => ⟨0xFE00707F, 0x00001033⟩
  | .slt _ _ _ => ⟨0xFE00707F, 0x00002033⟩
  | .sltu _ _ _ => ⟨0xFE00707F, 0x00003033⟩
  | .xor _ _ _ => ⟨0xFE00707F, 0x00004033⟩
  | .srl _ _ _ => ⟨0xFE00707F, 0x00005033⟩
  | .sra _ _ _ => ⟨0xFE00707F, 0x40005033⟩
  | .or _ _ _ => ⟨0xFE00707F, 0x00006033⟩
  | .and _ _ _ => ⟨0xFE00707F, 0x00007033⟩
  | .addi _ _ _ => ⟨0x0000707F, 0x00000013⟩
  | .slti _ _ _ => ⟨0x0000707F, 0x00002013⟩
  | .sltiu _ _ _ => ⟨0x0000707F, 0x00003013⟩
  | .xori _ _ _ => ⟨0x0000707F, 0x00004013⟩
  | .ori _ _ _ => ⟨0x0000707F, 0x00006013⟩
  | .andi _ _ _ => ⟨0x0000707F, 0x00007013⟩
  | .slli _ _ _ => ⟨0xFE00707F, 0x00001013⟩
  | .srli _ _ _ => ⟨0xFE00707F, 0x00005013⟩
  | .srai _ _ _ => ⟨0xFE00707F, 0x40005013⟩
  | .lb _ _ _ => ⟨0x0000707F, 0x00000003⟩
  | .lh _ _ _ => ⟨0x0000707F, 0x00001003⟩
  | .lw _ _ _ => ⟨0x0000707F, 0x00002003⟩
  | .lbu _ _ _ => ⟨0x0000707F, 0x00004003⟩
  | .lhu _ _ _ => ⟨0x0000707F, 0x00005003⟩
  | .sb _ _ _ => ⟨0x0000707F, 0x00000023⟩
  | .sh _ _ _ => ⟨0x0000707F, 0x00001023⟩
  | .sw _ _ _ => ⟨0x0000707F, 0x00002023⟩
  | .beq _ _ _ => ⟨0x0000707F, 0x00000063⟩
  | .bne _ _ _ => ⟨0x0000707F, 0x00001063⟩
  | .blt _ _ _ => ⟨0x0000707F, 0x00004063⟩
  | .bge _ _ _ => ⟨0x0000707F, 0x00005063⟩
  | .bltu _ _ _ => ⟨0x0000707F, 0x00006063⟩
  | .bgeu _ _ _ => ⟨0x0000707F, 0x00007063⟩
  | .jal _ _ => ⟨0x0000007F, 0x0000006F⟩
  | .jalr _ _ _ _ => ⟨0x0000007F, 0x00000067⟩
  | .lui _ _ => ⟨0x0000007F, 0x00000037⟩
  | .auipc _ _ => ⟨0x0000007F, 0x00000017⟩
  | .fence _ => ⟨0x0000007F, 0x0000000F⟩
  | .system _ => ⟨0x0000007F, 0x00000073⟩

/-- The rows with a function code in funct7 and funct3: OP and the shift immediates (R81, R82). -/
def opcodeRowsFunct7 : List OpcodeRow :=
  [⟨0xFE00707F, 0x00000033⟩, ⟨0xFE00707F, 0x40000033⟩, ⟨0xFE00707F, 0x00001033⟩,
   ⟨0xFE00707F, 0x00002033⟩, ⟨0xFE00707F, 0x00003033⟩, ⟨0xFE00707F, 0x00004033⟩,
   ⟨0xFE00707F, 0x00005033⟩, ⟨0xFE00707F, 0x40005033⟩, ⟨0xFE00707F, 0x00006033⟩,
   ⟨0xFE00707F, 0x00007033⟩, ⟨0xFE00707F, 0x00001013⟩, ⟨0xFE00707F, 0x00005013⟩,
   ⟨0xFE00707F, 0x40005013⟩]

/-- The rows with a function code in funct3 alone (R82 to R85). -/
def opcodeRowsFunct3 : List OpcodeRow :=
  [⟨0x0000707F, 0x00000013⟩, ⟨0x0000707F, 0x00002013⟩, ⟨0x0000707F, 0x00003013⟩,
   ⟨0x0000707F, 0x00004013⟩, ⟨0x0000707F, 0x00006013⟩, ⟨0x0000707F, 0x00007013⟩,
   ⟨0x0000707F, 0x00000003⟩, ⟨0x0000707F, 0x00001003⟩, ⟨0x0000707F, 0x00002003⟩,
   ⟨0x0000707F, 0x00004003⟩, ⟨0x0000707F, 0x00005003⟩, ⟨0x0000707F, 0x00000023⟩,
   ⟨0x0000707F, 0x00001023⟩, ⟨0x0000707F, 0x00002023⟩, ⟨0x0000707F, 0x00000063⟩,
   ⟨0x0000707F, 0x00001063⟩, ⟨0x0000707F, 0x00004063⟩, ⟨0x0000707F, 0x00005063⟩,
   ⟨0x0000707F, 0x00006063⟩, ⟨0x0000707F, 0x00007063⟩]

/-- The rows selected by the opcode alone (R80, R86). -/
def opcodeRowsOpcode : List OpcodeRow :=
  [⟨0x0000007F, 0x0000006F⟩, ⟨0x0000007F, 0x00000067⟩, ⟨0x0000007F, 0x00000037⟩,
   ⟨0x0000007F, 0x00000017⟩, ⟨0x0000007F, 0x0000000F⟩, ⟨0x0000007F, 0x00000073⟩]

/-- All 39 rows. -/
def opcodeTable : List OpcodeRow := opcodeRowsFunct7 ++ opcodeRowsFunct3 ++ opcodeRowsOpcode

end Sys2Proof
end

