-- ==== Sys2Proof/Config.lean ====
section
/-! DEFINITION. The parameters of the hardware (00_scope.md R6, R7; 92_eei_decisions.md D2, D4, D22).
The capacity `CAP` is a parameter an engine is created with and is held by its memory
(Machine/State.lean, log entry 1); here stands its reference value. -/

namespace Sys2Proof

/-- The values of the parameter SYSTEM_POLICY (92_eei_decisions.md, D4). -/
inductive SystemPolicy where
  /-- Every SYSTEM word halts with reason SystemCall. -/
  | halt
  /-- Every SYSTEM word only advances the program counter (the reference implementation). -/
  | noop
  deriving DecidableEq, Repr

/-- The values of the parameter SLTIU_IMM_EXT (92_eei_decisions.md, D22). -/
inductive ImmExt where
  /-- The 12-bit immediate is zero-extended. -/
  | zero
  /-- The 12-bit immediate is sign-extended (standard RV32I). -/
  | sign
  deriving DecidableEq, Repr

/-- SYSTEM_POLICY of this hardware (R6; D4; log entry 4). -/
def Config.systemPolicy : SystemPolicy := .halt

/-- SLTIU_IMM_EXT of this hardware (R6; R143; D22; log entry 5). -/
def Config.sltiuImmExt : ImmExt := .zero

/-- The reference capacity, 4096 bytes, as the exponent above 4 bytes: 2 ^ (10 + 2) (R6, R7). -/
def Config.referenceCapExp : Fin 31 := 10

/-- RESET_PC (R6). -/
def Config.resetPc : Word := 0

end Sys2Proof
end

