-- ==== Sys2Proof/Machine/State.lean ====
section
/-! DEFINITION. The architectural state and its reset value (10_state.md R20 to R37). The state is
the four components of R36; the parameter CAP, fixed for the life of an engine, is held by its
memory (log entry 1). -/

namespace Sys2Proof.Machine

/-- Why an engine halted (10_state.md R29; 60_exceptions.md R220). A halt is the machine's only
exception: it is a state, not an outcome of its own (log entry 2). -/
inductive HaltReason where
  /-- The program counter was no multiple of 4 at fetch; carries the program counter (R221). -/
  | alignmentFault (pc : Word)
  /-- The fetched word has no mapping; carries its opcode, funct3 and funct7 (R222). -/
  | decodeError (opcode : BitVec 7) (funct3 : BitVec 3) (funct7 : BitVec 7)
  /-- A word with the SYSTEM opcode was executed; carries the word (R223). -/
  | systemCall (inst : Word)
  deriving DecidableEq, Repr

/-- The run state (10_state.md R29). -/
inductive RunState where
  | running
  | halted (reason : HaltReason)
  deriving DecidableEq, Repr

/-- Memory (10_state.md R33; 20_memory.md R40): `2 ^ (capExp + 2)` bytes. `cells` lists the bytes that
are not 0, by address, in the canonical form `Memory.wf`; a byte not listed is 0, the reset
contents the spec gives (10_state.md R37; log entry 3). -/
structure Memory where
  /-- CAP is 2 ^ (capExp + 2): exactly the legal capacities of 00_scope.md R7, 4 to 2^32. -/
  capExp : Fin 31
  cells : List Host.Cell
  deriving DecidableEq, Repr

/-- The capacity CAP in bytes (00_scope.md R6, R7). -/
def Memory.cap (m : Memory) : Nat := 2 ^ (m.capExp.val + 2)

/-- The canonical form: addresses strictly rising and inside the array, no entry 0. -/
abbrev Memory.wf (m : Memory) : Prop :=
  m.cells.Pairwise (fun c d => c.1 < d.1) ∧ ∀ c ∈ m.cells, c.1 < m.cap ∧ c.2 ≠ 0#8

/-- The state of R36. -/
structure State where
  /-- `x1` to `x31`, in index order; `x0` is the constant 0 and is not stored (R21, R36). -/
  regs : Vector Word 31
  /-- The program counter (R24). -/
  pc : Word
  /-- The run state (R29). -/
  run : RunState
  /-- The memory `M` and its capacity (R33). -/
  mem : Memory
  deriving DecidableEq, Repr

/-- Why a step stops. -/
inductive Fault where
  /-- Raised by `step` on a Halted engine: Halted is terminal and no step is defined there
  (40_engine_cycle.md R107; 93_implementation_defined.md U9 "stuck"). Safe: the model claims no
  next state where the spec defines none (log entry 2). -/
  | engineHalted
  deriving DecidableEq, Repr

/-- Why the model gives no engine or no meaning. -/
inductive Refusal where
  /-- Raised by an arm of `exec` whose instruction has no meaning yet; no arm raises it now. Safe. -/
  | notModelled (mnemonic : String)
  /-- Raised by `boot` for an image longer than the capacity: reset reports LoadOverflow and creates
  no engine state (70_reset_and_hazards.md R253; 60_exceptions.md R224). Safe. -/
  | loadOverflow
  deriving DecidableEq, Repr

/-- The registers after reset: `x1` to `x31` are 0 (R37). -/
def State.resetRegs : Vector Word 31 := Vector.replicate 31 0#32

/-- The state right after reset with the empty image and the reference capacity
(10_state.md R37; 70_reset_and_hazards.md R250; log entry 6). -/
def State.reset : State where
  regs := State.resetRegs
  pc := Config.resetPc
  run := .running
  mem := { capExp := Config.referenceCapExp, cells := [] }

end Sys2Proof.Machine
end

