-- ==== Sys2Proof/Machine/Ops.lean ====
section
/-! DEFINITION. The named operations on memory, registers and the program counter, and taking a halt
(10_state.md R20 to R28; 20_memory.md R40 to R50; 40_engine_cycle.md R103; 60_exceptions.md R228). -/

namespace Sys2Proof.Machine

/-- What an instruction answers. -/
abbrev Result := Host.Outcome State Fault Refusal

/-! ## The list of bytes -/

/-- The byte listed at an address, 0 where none is. -/
def cellGet : List Host.Cell → Nat → Byte
  | [], _ => 0#8
  | (b, w) :: t, a => if a = b then w else cellGet t a

/-- The list without its entry at an address. -/
def cellErase : List Host.Cell → Nat → List Host.Cell
  | [], _ => []
  | (b, w) :: t, a => if a = b then cellErase t a else (b, w) :: cellErase t a

/-- The list with an entry put before the first greater address. -/
def cellInsert : List Host.Cell → Nat → Byte → List Host.Cell
  | [], a, v => [(a, v)]
  | (b, w) :: t, a, v => if a < b then (a, v) :: (b, w) :: t else (b, w) :: cellInsert t a v

/-- The list after a write: a 0 is not listed. -/
def cellSet (l : List Host.Cell) (a : Nat) (v : Byte) : List Host.Cell :=
  if v = 0#8 then cellErase l a else cellInsert (cellErase l a) a v

/-! ## Memory -/

/-- `M[k]` (00_scope.md R13). -/
def Memory.get (m : Memory) (k : Nat) : Byte := cellGet m.cells k

/-- `M[k] <- v`. -/
def Memory.set (m : Memory) (k : Nat) (v : Byte) : Memory := { m with cells := cellSet m.cells k v }

/-- The index of byte `i` of an access at `a`: each constituent byte address is reduced modulo CAP
(20_memory.md R41). -/
def Memory.index (m : Memory) (a : Word) (i : Nat) : Nat := (a.toNat + i) % m.cap

/-- Byte `i` of an access at `a` (20_memory.md R41). -/
def Memory.byteAt (m : Memory) (a : Word) (i : Nat) : Byte := m.get (m.index a i)

/-- `MemRead(a, 1)` (20_memory.md R42). -/
def Memory.loadByte (m : Memory) (a : Word) : Byte := m.byteAt a 0

/-- `MemRead(a, 2)`, little-endian (20_memory.md R42). -/
def Memory.loadHalf (m : Memory) (a : Word) : Half := m.byteAt a 1 ++ m.byteAt a 0

/-- `MemRead(a, 4)`, little-endian (20_memory.md R42). -/
def Memory.loadWord (m : Memory) (a : Word) : Word :=
  m.byteAt a 3 ++ m.byteAt a 2 ++ m.byteAt a 1 ++ m.byteAt a 0

/-- Byte `i` of a word, `v[8i+7 : 8i]` (20_memory.md R43). -/
def byteOf (v : Word) (i : Nat) : Byte := v.extractLsb' (8 * i) 8

/-- `MemWrite(a, n, v)`: the low `n` bytes of `v`, little-endian (20_memory.md R43). -/
def Memory.store (m : Memory) (a v : Word) : Nat → Memory
  | 0 => m
  | n + 1 => (m.store a v n).set (m.index a n) (byteOf v n)

def Memory.storeByte (m : Memory) (a v : Word) : Memory := m.store a v 1
def Memory.storeHalf (m : Memory) (a v : Word) : Memory := m.store a v 2
def Memory.storeWord (m : Memory) (a v : Word) : Memory := m.store a v 4

/-- The listed cells of an image whose first byte has address `k` (20_memory.md R61;
70_reset_and_hazards.md R252). -/
def imageCells : Nat → List Byte → List Host.Cell
  | _, [] => []
  | k, b :: t => if b = 0#8 then imageCells (k + 1) t else (k, b) :: imageCells (k + 1) t

/-! ## Registers -/

/-- `x[r]`: register 0 reads 0 (10_state.md R21). -/
def State.readReg (s : State) (r : RegIdx) : Word :=
  if r = 0#5 then 0#32 else s.regs[r.toNat - 1]'(by omega)

/-- `x[r] <- v`: a write to register 0 is dropped (10_state.md R21). -/
def State.writeReg (s : State) (r : RegIdx) (v : Word) : State :=
  if r = 0#5 then s else { s with regs := s.regs.set (r.toNat - 1) v (by omega) }

/-! ## The program counter -/

/-- The default next value, `(A + 4) mod CAP` (10_state.md R25; 40_engine_cycle.md R103). -/
def State.npc (s : State) : Word := BitVec.ofNat 32 ((s.pc.toNat + 4) % s.mem.cap)

/-- The link value, `(A + 4) mod 2^32`, not reduced modulo CAP (46_jump.md R190; log entry 9). -/
def State.linkValue (s : State) : Word := s.pc + 4

/-- `pc <- npc` and nothing else. -/
def State.advance (s : State) : State := { s with pc := s.npc }

/-- `x[rd] <- v ; pc <- npc`: how every ALU, load and upper-immediate instruction ends
(41_op_alu.md R120; 10_state.md R26). -/
def State.writeBack (s : State) (rd : RegIdx) (v : Word) : State :=
  { s.writeReg rd v with pc := s.npc }

/-- Write `n` bytes of `v` at `ea` and advance (44_store.md R170). -/
def State.storeAdvance (s : State) (ea v : Word) (n : Nat) : State :=
  { s with mem := s.mem.store ea v n, pc := s.npc }

/-- Go to `target` if `taken`, else advance (45_branch.md R180). -/
def State.branchTo (s : State) (taken : Bool) (target : Word) : State :=
  { s with pc := if taken then target else s.npc }

/-- Write the link value and go to `target`; the target is computed before the write
(46_jump.md R190, R191). -/
def State.linkTo (s : State) (rd : RegIdx) (target : Word) : State :=
  { s.writeReg rd s.linkValue with pc := target }

/-! ## Taking a halt -/

/-- `raise reason`: the run state becomes Halted and nothing else changes; the program counter keeps
the address of this step (60_exceptions.md R228). There is no return from a halt (R230). -/
def State.raise (s : State) (reason : HaltReason) : State := { s with run := .halted reason }

end Sys2Proof.Machine
end

