-- ==== Sys2Proof/Machine/Flags.lean ====
section
/-! DEFINITION. The hardware has no flags and no condition codes (10_state.md R31). What stands in
their place are the comparisons, made by the instruction that uses them: the set-less-than
instructions (41_op_alu.md R124, R125; 42_op_imm_alu.md R142, R143) and the branches (45_branch.md R180). -/

namespace Sys2Proof.Machine

/-- `a <s b` (00_scope.md R13). -/
def lessS (a b : Word) : Bool := a.slt b

/-- `a <u b`, over the full 32 bits (00_scope.md R13; 41_op_alu.md R125). -/
def lessU (a b : Word) : Bool := a.ult b

/-- 1 or 0 (41_op_alu.md R124). -/
def boolWord (b : Bool) : Word := if b then 1#32 else 0#32

end Sys2Proof.Machine
end

