-- ==== Sys2Proof/Machine/Operands.lean ====
section
/-! DEFINITION. The operand forms: effective addresses, targets, the SLTIU operand, shift amounts, and
the shifts over them (00_scope.md R13; files 41 to 46). -/

namespace Sys2Proof.Machine

/-- `x[rs1] + immI` or `x[rs1] + immS`, modulo 2^32: the one addressing mode
(43_load.md R160; 44_store.md R170). -/
def State.loadAddr (s : State) (rs1 : RegIdx) (imm : BitVec 12) : Word := s.readReg rs1 + immI imm

def State.storeAddr (s : State) (rs1 : RegIdx) (imm : BitVec 12) : Word := s.readReg rs1 + immS imm

/-- `(A + immB) mod 2^32`, from the branch's own address (45_branch.md R180; 40_engine_cycle.md R111). -/
def State.branchTarget (s : State) (off : BitVec 13) : Word := s.pc + immB off

/-- `(A + immJ) mod 2^32` (46_jump.md R190). -/
def State.jalTarget (s : State) (off : BitVec 21) : Word := s.pc + immJ off

/-- `((x[rs1] + immI) mod 2^32) & 0xFFFFFFFE` (46_jump.md R191). -/
def State.jalrTarget (s : State) (rs1 : RegIdx) (imm : BitVec 12) : Word :=
  (s.readReg rs1 + immI imm) &&& 0xFFFFFFFE#32

/-- The immediate operand of SLTIU under each value of SLTIU_IMM_EXT
(42_op_imm_alu.md R143; log entry 5). -/
def sltiuOperand : ImmExt → BitVec 12 → Word
  | .zero, f => f.setWidth 32
  | .sign, f => immI f

/-- The shift amount of a register shift: the low 5 bits (41_op_alu.md R123). -/
def shiftAmount (v : Word) : BitVec 5 := v.setWidth 5

/-- `a << n` (00_scope.md R13). -/
def shiftLeft (a : Word) (n : BitVec 5) : Word := a <<< n.toNat

/-- `a >>u n` (00_scope.md R13). -/
def shiftRightU (a : Word) (n : BitVec 5) : Word := a >>> n.toNat

/-- `a >>s n` (00_scope.md R13). -/
def shiftRightS (a : Word) (n : BitVec 5) : Word := a.sshiftRight n.toNat

/-- A byte or half-word as a signed word (`sext_8`, `sext_16`). -/
def sext {w : Nat} (v : BitVec w) : Word := v.signExtend 32

/-- A byte or half-word as an unsigned word (`zext_8`, `zext_16`). -/
def zext {w : Nat} (v : BitVec w) : Word := v.setWidth 32

end Sys2Proof.Machine
end

