-- ==== Sys2Proof/Machine/Branch.lean ====
section
/-! DEFINITION. The BRANCH group (45_branch.md): the target comes from the branch's own address and is not checked (R180). -/

namespace Sys2Proof.Machine

/-- BEQ (45_branch.md R181). -/
def execBeq (rs1 rs2 : RegIdx) (off : BitVec 13) (s : State) : Result :=
  .next (s.branchTo (s.readReg rs1 == s.readReg rs2) (s.branchTarget off))

/-- BNE (45_branch.md R182). -/
def execBne (rs1 rs2 : RegIdx) (off : BitVec 13) (s : State) : Result :=
  .next (s.branchTo (s.readReg rs1 != s.readReg rs2) (s.branchTarget off))

/-- BLT (45_branch.md R183). -/
def execBlt (rs1 rs2 : RegIdx) (off : BitVec 13) (s : State) : Result :=
  .next (s.branchTo (lessS (s.readReg rs1) (s.readReg rs2)) (s.branchTarget off))

/-- BGE (45_branch.md R184). -/
def execBge (rs1 rs2 : RegIdx) (off : BitVec 13) (s : State) : Result :=
  .next (s.branchTo (!lessS (s.readReg rs1) (s.readReg rs2)) (s.branchTarget off))

/-- BLTU (45_branch.md R185). -/
def execBltu (rs1 rs2 : RegIdx) (off : BitVec 13) (s : State) : Result :=
  .next (s.branchTo (lessU (s.readReg rs1) (s.readReg rs2)) (s.branchTarget off))

/-- BGEU (45_branch.md R186). -/
def execBgeu (rs1 rs2 : RegIdx) (off : BitVec 13) (s : State) : Result :=
  .next (s.branchTo (!lessU (s.readReg rs1) (s.readReg rs2)) (s.branchTarget off))

end Sys2Proof.Machine
end

