-- ==== Sys2Proof/Machine/FenceSystem.lean ====
section
/-! DEFINITION. FENCE and SYSTEM (48_fence_system.md). -/

namespace Sys2Proof.Machine

/-- FENCE, every word of opcode 0x0F: no effect but the advance (48_fence_system.md R210, R211). -/
def execFence (s : State) : Result :=
  .next s.advance

/-- The word of a SYSTEM instruction: its 25 uninterpreted bits above the opcode 0x73 (30_encoding.md R86). -/
def systemWord (payload : BitVec 25) : Word := payload ++ 0x73#7

/-- What a SYSTEM word does under each value of SYSTEM_POLICY (48_fence_system.md R212; log entry 4). -/
def State.systemEffect (s : State) (inst : Word) : SystemPolicy → State
  | .halt => s.raise (.systemCall inst)
  | .noop => s.advance

/-- SYSTEM, every word of opcode 0x73 (48_fence_system.md R212, R213). -/
def execSystem (payload : BitVec 25) (s : State) : Result :=
  .next (s.systemEffect (systemWord payload) Config.systemPolicy)

end Sys2Proof.Machine
end

