-- ==== Sys2Proof/Machine/Jump.lean ====
section
/-! DEFINITION. The jumps (46_jump.md). No target is checked: a target that is no multiple of 4 is written, and the
next step halts (R192). -/

namespace Sys2Proof.Machine

/-- JAL (46_jump.md R190). -/
def execJal (rd : RegIdx) (off : BitVec 21) (s : State) : Result :=
  .next (s.linkTo rd (s.jalTarget off))

/-- JALR: the target comes from `x[rs1]` before the link is written (46_jump.md R191). -/
def execJalr (rd rs1 : RegIdx) (imm : BitVec 12) (s : State) : Result :=
  .next (s.linkTo rd (s.jalrTarget rs1 imm))

end Sys2Proof.Machine
end

