-- ==== Sys2Proof/Machine/Load.lean ====
section
/-! DEFINITION. The LOAD group (43_load.md): no access faults and none needs alignment (R160). -/

namespace Sys2Proof.Machine

/-- LB (43_load.md R161). -/
def execLb (rd rs1 : RegIdx) (imm : BitVec 12) (s : State) : Result :=
  .next (s.writeBack rd (sext (s.mem.loadByte (s.loadAddr rs1 imm))))

/-- LH (43_load.md R162). -/
def execLh (rd rs1 : RegIdx) (imm : BitVec 12) (s : State) : Result :=
  .next (s.writeBack rd (sext (s.mem.loadHalf (s.loadAddr rs1 imm))))

/-- LW (43_load.md R163). -/
def execLw (rd rs1 : RegIdx) (imm : BitVec 12) (s : State) : Result :=
  .next (s.writeBack rd (s.mem.loadWord (s.loadAddr rs1 imm)))

/-- LBU (43_load.md R164). -/
def execLbu (rd rs1 : RegIdx) (imm : BitVec 12) (s : State) : Result :=
  .next (s.writeBack rd (zext (s.mem.loadByte (s.loadAddr rs1 imm))))

/-- LHU (43_load.md R165). -/
def execLhu (rd rs1 : RegIdx) (imm : BitVec 12) (s : State) : Result :=
  .next (s.writeBack rd (zext (s.mem.loadHalf (s.loadAddr rs1 imm))))

end Sys2Proof.Machine
end

