-- ==== Sys2Proof/Machine/OpAlu.lean ====
section
/-! DEFINITION. The R-type ALU group (41_op_alu.md): both sources are read before the write, the result goes to
`x[rd]`, and the program counter advances (R120). -/

namespace Sys2Proof.Machine

/-- ADD (41_op_alu.md R121). -/
def execAdd (rd rs1 rs2 : RegIdx) (s : State) : Result :=
  .next (s.writeBack rd (s.readReg rs1 + s.readReg rs2))

/-- SUB (41_op_alu.md R122). -/
def execSub (rd rs1 rs2 : RegIdx) (s : State) : Result :=
  .next (s.writeBack rd (s.readReg rs1 - s.readReg rs2))

/-- SLL (41_op_alu.md R123). -/
def execSll (rd rs1 rs2 : RegIdx) (s : State) : Result :=
  .next (s.writeBack rd (shiftLeft (s.readReg rs1) (shiftAmount (s.readReg rs2))))

/-- SLT (41_op_alu.md R124). -/
def execSlt (rd rs1 rs2 : RegIdx) (s : State) : Result :=
  .next (s.writeBack rd (boolWord (lessS (s.readReg rs1) (s.readReg rs2))))

/-- SLTU (41_op_alu.md R125). -/
def execSltu (rd rs1 rs2 : RegIdx) (s : State) : Result :=
  .next (s.writeBack rd (boolWord (lessU (s.readReg rs1) (s.readReg rs2))))

/-- XOR (41_op_alu.md R126). -/
def execXor (rd rs1 rs2 : RegIdx) (s : State) : Result :=
  .next (s.writeBack rd (s.readReg rs1 ^^^ s.readReg rs2))

/-- SRL (41_op_alu.md R127). -/
def execSrl (rd rs1 rs2 : RegIdx) (s : State) : Result :=
  .next (s.writeBack rd (shiftRightU (s.readReg rs1) (shiftAmount (s.readReg rs2))))

/-- SRA (41_op_alu.md R128). -/
def execSra (rd rs1 rs2 : RegIdx) (s : State) : Result :=
  .next (s.writeBack rd (shiftRightS (s.readReg rs1) (shiftAmount (s.readReg rs2))))

/-- OR (41_op_alu.md R129). -/
def execOr (rd rs1 rs2 : RegIdx) (s : State) : Result :=
  .next (s.writeBack rd (s.readReg rs1 ||| s.readReg rs2))

/-- AND (41_op_alu.md R130). -/
def execAnd (rd rs1 rs2 : RegIdx) (s : State) : Result :=
  .next (s.writeBack rd (s.readReg rs1 &&& s.readReg rs2))

end Sys2Proof.Machine
end

