-- ==== Sys2Proof/Machine/OpImmAlu.lean ====
section
/-! DEFINITION. The I-type ALU group (42_op_imm_alu.md): `x[rd]` gets the result of `x[rs1]` and the immediate, and
the program counter advances (R140). -/

namespace Sys2Proof.Machine

/-- ADDI (42_op_imm_alu.md R141). -/
def execAddi (rd rs1 : RegIdx) (imm : BitVec 12) (s : State) : Result :=
  .next (s.writeBack rd (s.readReg rs1 + immI imm))

/-- SLTI (42_op_imm_alu.md R142). -/
def execSlti (rd rs1 : RegIdx) (imm : BitVec 12) (s : State) : Result :=
  .next (s.writeBack rd (boolWord (lessS (s.readReg rs1) (immI imm))))

/-- SLTIU (42_op_imm_alu.md R143; the operand is zero-extended on this hardware, log entry 5). -/
def execSltiu (rd rs1 : RegIdx) (imm : BitVec 12) (s : State) : Result :=
  .next (s.writeBack rd (boolWord (lessU (s.readReg rs1) (sltiuOperand Config.sltiuImmExt imm))))

/-- XORI (42_op_imm_alu.md R144). -/
def execXori (rd rs1 : RegIdx) (imm : BitVec 12) (s : State) : Result :=
  .next (s.writeBack rd (s.readReg rs1 ^^^ immI imm))

/-- ORI (42_op_imm_alu.md R145). -/
def execOri (rd rs1 : RegIdx) (imm : BitVec 12) (s : State) : Result :=
  .next (s.writeBack rd (s.readReg rs1 ||| immI imm))

/-- ANDI (42_op_imm_alu.md R146). -/
def execAndi (rd rs1 : RegIdx) (imm : BitVec 12) (s : State) : Result :=
  .next (s.writeBack rd (s.readReg rs1 &&& immI imm))

/-- SLLI (42_op_imm_alu.md R147). -/
def execSlli (rd rs1 : RegIdx) (shamt : BitVec 5) (s : State) : Result :=
  .next (s.writeBack rd (shiftLeft (s.readReg rs1) shamt))

/-- SRLI (42_op_imm_alu.md R148). -/
def execSrli (rd rs1 : RegIdx) (shamt : BitVec 5) (s : State) : Result :=
  .next (s.writeBack rd (shiftRightU (s.readReg rs1) shamt))

/-- SRAI (42_op_imm_alu.md R149). -/
def execSrai (rd rs1 : RegIdx) (shamt : BitVec 5) (s : State) : Result :=
  .next (s.writeBack rd (shiftRightS (s.readReg rs1) shamt))

end Sys2Proof.Machine
end

