-- ==== Sys2Proof/Machine/Store.lean ====
section
/-! DEFINITION. The STORE group (44_store.md): no access faults and none needs alignment (R170). -/

namespace Sys2Proof.Machine

/-- SB (44_store.md R171). -/
def execSb (rs1 rs2 : RegIdx) (imm : BitVec 12) (s : State) : Result :=
  .next (s.storeAdvance (s.storeAddr rs1 imm) (s.readReg rs2) 1)

/-- SH (44_store.md R172). -/
def execSh (rs1 rs2 : RegIdx) (imm : BitVec 12) (s : State) : Result :=
  .next (s.storeAdvance (s.storeAddr rs1 imm) (s.readReg rs2) 2)

/-- SW (44_store.md R173). -/
def execSw (rs1 rs2 : RegIdx) (imm : BitVec 12) (s : State) : Result :=
  .next (s.storeAdvance (s.storeAddr rs1 imm) (s.readReg rs2) 4)

end Sys2Proof.Machine
end

