-- ==== Sys2Proof/Machine/UpperImm.lean ====
section
/-! DEFINITION. The upper-immediate instructions (47_upper_imm.md). -/

namespace Sys2Proof.Machine

/-- LUI (47_upper_imm.md R200). -/
def execLui (rd : RegIdx) (imm : BitVec 20) (s : State) : Result :=
  .next (s.writeBack rd (immU imm))

/-- AUIPC: from this instruction's own address, not the advanced one (47_upper_imm.md R201). -/
def execAuipc (rd : RegIdx) (imm : BitVec 20) (s : State) : Result :=
  .next (s.writeBack rd (s.pc + immU imm))

end Sys2Proof.Machine
end

