-- ==== Sys2Proof/Machine/Fetch.lean ====
section
/-! DEFINITION. The parts of a step before execution: the alignment check, the fetch, decode and dispatch
(40_engine_cycle.md R101 to R105). -/

namespace Sys2Proof.Machine

/-- The program counter is a multiple of 4, on its full 32 bits (R101). -/
def State.aligned (s : State) : Bool := s.pc.toNat % 4 == 0

/-- `inst = MemRead(pc, 4)` (R102; 20_memory.md R50). -/
def State.fetch (s : State) : Word := s.mem.loadWord s.pc

/-- The reason an undecodable word halts with (30_encoding.md R87). -/
def decodeErrorOf (w : Word) : HaltReason :=
  .decodeError (opcodeOf w) (funct3Of w) (funct7Of w)

/-- The instruction of this step, or the reason it halts before execution: the alignment test comes
first (R101), then the word is fetched (R102), decoded (R104) and dispatched (R105); the order is that of
60_exceptions.md R227. -/
def State.fetchInstr (s : State) : Except HaltReason Instr :=
  if s.aligned then
    match decode s.fetch with
    | .ok i => .ok i
    | .error _ => .error (decodeErrorOf s.fetch)
  else .error (.alignmentFault s.pc)

/-- The state with a word where the next fetch reads it. -/
def State.placeWord (s : State) (w : Word) : State := { s with mem := s.mem.storeWord s.pc w }

end Sys2Proof.Machine
end

