-- ==== Sys2Proof/Machine/Step.lean ====
section
/-! DEFINITION. One step of the engine (40_engine_cycle.md R100, R107, R112). -/

namespace Sys2Proof.Machine

/-- One step. A Halted engine has no step (R107). A Running engine fetches; it halts with the reason the
fetch or the dispatch gives (R101, R105), or executes the instruction (R106). -/
def step (s : State) : Host.Outcome State Fault Refusal :=
  match s.run with
  | .halted _ => .fault .engineHalted
  | .running =>
    match s.fetchInstr with
    | .error reason => .next (s.raise reason)
    | .ok i => exec i s

/-- The state with the word `tableWord nbits w` stored where `step` fetches its next instruction. -/
def State.withFetchWord (s : State) (nbits w : Nat) : State := s.placeWord (tableWord nbits w)

end Sys2Proof.Machine
end

