-- ==== Sys2Proof/Machine/HostInterface.lean ====
section
/-! DEFINITION. What the host can do beside asking for one step (70_reset_and_hazards.md R250 to R253, R261;
40_engine_cycle.md R108, R109; 60_exceptions.md R238). -/

namespace Sys2Proof.Machine

/-- Reset with a program image and a capacity: the image at address 0, zeros after it, registers and
program counter 0, Running; an image longer than the capacity creates no engine (R250, R252, R253). -/
def boot (capExp : Fin 31) (image : List Byte) : Result :=
  if image.length ≤ 2 ^ (capExp.val + 2) then
    .next { State.reset with mem := { capExp := capExp, cells := imageCells 0 image } }
  else .refused .loadOverflow

/-- A run with a step limit of the host: single steps until the engine is Halted or the limit is
reached (R109; 92_eei_decisions.md D23). -/
def State.runUpTo (s : State) : Nat → State
  | 0 => s
  | n + 1 =>
    match s.run with
    | .halted _ => s
    | .running =>
      match step s with
      | .next t => t.runUpTo n
      | .fault _ => s
      | .refused _ => s

/-- Run to halt, the second entry point: `RunsToHalt s t` says that the run from `s` ends, and ends in `t`.
The host supplies nothing; the single step is repeated until the engine is Halted (40_engine_cycle.md R108,
R109; 70_reset_and_hazards.md R261, R262). A run that never halts has no end, so a state from which it loops
for ever is related to nothing (log entry 14). -/
inductive RunsToHalt : State → State → Prop where
  /-- The run has ended: the engine is Halted. -/
  | ended {s : State} {reason : HaltReason} (h : s.run = .halted reason) : RunsToHalt s s
  /-- One more step of a Running engine, and on from there. -/
  | again {s t u : State} (h : step s = .next t) (rest : RunsToHalt t u) : RunsToHalt s u

/-- What the host can read in every state: the 32 registers in index order, and the run state (R238). -/
def State.observe (s : State) : List Word × RunState :=
  ((List.range 32).map (fun i => s.readReg (BitVec.ofNat 5 i)), s.run)

/-- The items of the register dump, each `x<index>=<decimal-value>` with an unsigned value; what stands
between items is not given (R238; 92_eei_decisions.md D16; 91_not_in_source.md N26). -/
def State.registerDump (s : State) : List String :=
  (List.range 32).map (fun i =>
    "x" ++ toString i ++ "=" ++ toString (s.readReg (BitVec.ofNat 5 i)).toNat)

end Sys2Proof.Machine
end

