-- ==== Sys2Proof/Safety.lean ====
section
/-! DEFINITION. The terms in which statements about the machine are made: what an instruction names,
what a state and its successor have in common, the words with no mapping, and the invariant of a run. -/

namespace Sys2Proof

/-! ## What an instruction names (10_state.md R22) -/

/-- The register an instruction writes, where it writes one. -/
def Instr.dest : Instr → Option RegIdx
  | .add rd _ _ => some rd
  | .sub rd _ _ => some rd
  | .sll rd _ _ => some rd
  | .slt rd _ _ => some rd
  | .sltu rd _ _ => some rd
  | .xor rd _ _ => some rd
  | .srl rd _ _ => some rd
  | .sra rd _ _ => some rd
  | .or rd _ _ => some rd
  | .and rd _ _ => some rd
  | .addi rd _ _ => some rd
  | .slti rd _ _ => some rd
  | .sltiu rd _ _ => some rd
  | .xori rd _ _ => some rd
  | .ori rd _ _ => some rd
  | .andi rd _ _ => some rd
  | .slli rd _ _ => some rd
  | .srli rd _ _ => some rd
  | .srai rd _ _ => some rd
  | .lb rd _ _ => some rd
  | .lh rd _ _ => some rd
  | .lw rd _ _ => some rd
  | .lbu rd _ _ => some rd
  | .lhu rd _ _ => some rd
  | .jal rd _ => some rd
  | .jalr rd _ _ _ => some rd
  | .lui rd _ => some rd
  | .auipc rd _ => some rd
  | .sb _ _ _ => none
  | .sh _ _ _ => none
  | .sw _ _ _ => none
  | .beq _ _ _ => none
  | .bne _ _ _ => none
  | .blt _ _ _ => none
  | .bge _ _ _ => none
  | .bltu _ _ _ => none
  | .bgeu _ _ _ => none
  | .fence _ => none
  | .system _ => none

/-- The registers an instruction reads. -/
def Instr.sources : Instr → List RegIdx
  | .add _ rs1 rs2 => [rs1, rs2]
  | .sub _ rs1 rs2 => [rs1, rs2]
  | .sll _ rs1 rs2 => [rs1, rs2]
  | .slt _ rs1 rs2 => [rs1, rs2]
  | .sltu _ rs1 rs2 => [rs1, rs2]
  | .xor _ rs1 rs2 => [rs1, rs2]
  | .srl _ rs1 rs2 => [rs1, rs2]
  | .sra _ rs1 rs2 => [rs1, rs2]
  | .or _ rs1 rs2 => [rs1, rs2]
  | .and _ rs1 rs2 => [rs1, rs2]
  | .addi _ rs1 _ => [rs1]
  | .slti _ rs1 _ => [rs1]
  | .sltiu _ rs1 _ => [rs1]
  | .xori _ rs1 _ => [rs1]
  | .ori _ rs1 _ => [rs1]
  | .andi _ rs1 _ => [rs1]
  | .slli _ rs1 _ => [rs1]
  | .srli _ rs1 _ => [rs1]
  | .srai _ rs1 _ => [rs1]
  | .lb _ rs1 _ => [rs1]
  | .lh _ rs1 _ => [rs1]
  | .lw _ rs1 _ => [rs1]
  | .lbu _ rs1 _ => [rs1]
  | .lhu _ rs1 _ => [rs1]
  | .sb rs1 rs2 _ => [rs1, rs2]
  | .sh rs1 rs2 _ => [rs1, rs2]
  | .sw rs1 rs2 _ => [rs1, rs2]
  | .beq rs1 rs2 _ => [rs1, rs2]
  | .bne rs1 rs2 _ => [rs1, rs2]
  | .blt rs1 rs2 _ => [rs1, rs2]
  | .bge rs1 rs2 _ => [rs1, rs2]
  | .bltu rs1 rs2 _ => [rs1, rs2]
  | .bgeu rs1 rs2 _ => [rs1, rs2]
  | .jalr _ rs1 _ _ => [rs1]
  | .jal _ _ => []
  | .lui _ _ => []
  | .auipc _ _ => []
  | .fence _ => []
  | .system _ => []

/-- Branches and jumps (10_state.md R26). -/
def Instr.isTransfer : Instr → Bool
  | .beq _ _ _ => true
  | .bne _ _ _ => true
  | .blt _ _ _ => true
  | .bge _ _ _ => true
  | .bltu _ _ _ => true
  | .bgeu _ _ _ => true
  | .jal _ _ => true
  | .jalr _ _ _ _ => true
  | _ => false

/-- SB, SH and SW (44_store.md R170). -/
def Instr.isStore : Instr → Bool
  | .sb _ _ _ => true
  | .sh _ _ _ => true
  | .sw _ _ _ => true
  | _ => false

/-- SYSTEM (48_fence_system.md R212). -/
def Instr.isSystem : Instr → Bool
  | .system _ => true
  | _ => false

/-- The operands of an instruction are the fields and immediates the decoder of 30_encoding.md R79
returns, format by format (R72). SLTIU uses the 12-bit field before extension (42_op_imm_alu.md R143). -/
def Instr.operandsFrom (w : Word) (f : Fields) : Instr → Prop
  | .add rd rs1 rs2 => rd = f.rd ∧ rs1 = f.rs1 ∧ rs2 = f.rs2
  | .sub rd rs1 rs2 => rd = f.rd ∧ rs1 = f.rs1 ∧ rs2 = f.rs2
  | .sll rd rs1 rs2 => rd = f.rd ∧ rs1 = f.rs1 ∧ rs2 = f.rs2
  | .slt rd rs1 rs2 => rd = f.rd ∧ rs1 = f.rs1 ∧ rs2 = f.rs2
  | .sltu rd rs1 rs2 => rd = f.rd ∧ rs1 = f.rs1 ∧ rs2 = f.rs2
  | .xor rd rs1 rs2 => rd = f.rd ∧ rs1 = f.rs1 ∧ rs2 = f.rs2
  | .srl rd rs1 rs2 => rd = f.rd ∧ rs1 = f.rs1 ∧ rs2 = f.rs2
  | .sra rd rs1 rs2 => rd = f.rd ∧ rs1 = f.rs1 ∧ rs2 = f.rs2
  | .or rd rs1 rs2 => rd = f.rd ∧ rs1 = f.rs1 ∧ rs2 = f.rs2
  | .and rd rs1 rs2 => rd = f.rd ∧ rs1 = f.rs1 ∧ rs2 = f.rs2
  | .addi rd rs1 imm => rd = f.rd ∧ rs1 = f.rs1 ∧ immI imm = f.immI
  | .slti rd rs1 imm => rd = f.rd ∧ rs1 = f.rs1 ∧ immI imm = f.immI
  | .sltiu rd rs1 imm => rd = f.rd ∧ rs1 = f.rs1 ∧ imm.toNat = w.toNat / 2 ^ 20
  | .xori rd rs1 imm => rd = f.rd ∧ rs1 = f.rs1 ∧ immI imm = f.immI
  | .ori rd rs1 imm => rd = f.rd ∧ rs1 = f.rs1 ∧ immI imm = f.immI
  | .andi rd rs1 imm => rd = f.rd ∧ rs1 = f.rs1 ∧ immI imm = f.immI
  | .slli rd rs1 shamt => rd = f.rd ∧ rs1 = f.rs1 ∧ shamt = f.shamt
  | .srli rd rs1 shamt => rd = f.rd ∧ rs1 = f.rs1 ∧ shamt = f.shamt
  | .srai rd rs1 shamt => rd = f.rd ∧ rs1 = f.rs1 ∧ shamt = f.shamt
  | .lb rd rs1 imm => rd = f.rd ∧ rs1 = f.rs1 ∧ immI imm = f.immI
  | .lh rd rs1 imm => rd = f.rd ∧ rs1 = f.rs1 ∧ immI imm = f.immI
  | .lw rd rs1 imm => rd = f.rd ∧ rs1 = f.rs1 ∧ immI imm = f.immI
  | .lbu rd rs1 imm => rd = f.rd ∧ rs1 = f.rs1 ∧ immI imm = f.immI
  | .lhu rd rs1 imm => rd = f.rd ∧ rs1 = f.rs1 ∧ immI imm = f.immI
  | .sb rs1 rs2 imm => rs1 = f.rs1 ∧ rs2 = f.rs2 ∧ immS imm = f.immS
  | .sh rs1 rs2 imm => rs1 = f.rs1 ∧ rs2 = f.rs2 ∧ immS imm = f.immS
  | .sw rs1 rs2 imm => rs1 = f.rs1 ∧ rs2 = f.rs2 ∧ immS imm = f.immS
  | .beq rs1 rs2 off => rs1 = f.rs1 ∧ rs2 = f.rs2 ∧ immB off = f.immB
  | .bne rs1 rs2 off => rs1 = f.rs1 ∧ rs2 = f.rs2 ∧ immB off = f.immB
  | .blt rs1 rs2 off => rs1 = f.rs1 ∧ rs2 = f.rs2 ∧ immB off = f.immB
  | .bge rs1 rs2 off => rs1 = f.rs1 ∧ rs2 = f.rs2 ∧ immB off = f.immB
  | .bltu rs1 rs2 off => rs1 = f.rs1 ∧ rs2 = f.rs2 ∧ immB off = f.immB
  | .bgeu rs1 rs2 off => rs1 = f.rs1 ∧ rs2 = f.rs2 ∧ immB off = f.immB
  | .jal rd off => rd = f.rd ∧ immJ off = f.immJ
  | .jalr rd rs1 imm ignored => rd = f.rd ∧ rs1 = f.rs1 ∧ immI imm = f.immI ∧ ignored = f.funct3
  | .lui rd imm => rd = f.rd ∧ immU imm = f.immU
  | .auipc rd imm => rd = f.rd ∧ immU imm = f.immU
  | .fence ignored => ignored.toNat = w.toNat / 2 ^ 7
  | .system payload => payload.toNat = w.toNat / 2 ^ 7

/-! ## The words with no mapping (30_encoding.md R87) -/

/-- The opcode, funct3 and funct7 of a word as numbers. -/
def opNum (w : Word) : Nat := w.toNat % 2 ^ 7
def f3Num (w : Word) : Nat := w.toNat / 2 ^ 12 % 2 ^ 3
def f7Num (w : Word) : Nat := w.toNat / 2 ^ 25

/-- The complete set of R87, case by case, in numbers. -/
def noMapping (w : Word) : Bool :=
  !([0x33, 0x13, 0x03, 0x23, 0x63, 0x6F, 0x67, 0x37, 0x17, 0x0F, 0x73].contains (opNum w))
  || (opNum w == 0x33 && !([(0, 0), (0, 32), (1, 0), (2, 0), (3, 0), (4, 0), (5, 0), (5, 32), (6, 0),
        (7, 0)].contains (f3Num w, f7Num w)))
  || (opNum w == 0x13 && f3Num w == 1 && f7Num w != 0)
  || (opNum w == 0x13 && f3Num w == 5 && f7Num w != 0 && f7Num w != 32)
  || (opNum w == 0x03 && [3, 6, 7].contains (f3Num w))
  || (opNum w == 0x23 && [3, 4, 5, 6, 7].contains (f3Num w))
  || (opNum w == 0x63 && [2, 3].contains (f3Num w))

namespace Machine

/-! ## What a state and its successor have in common -/

/-- Every register reads the same. -/
abbrev SameRegs (s t : State) : Prop := ∀ r, t.readReg r = s.readReg r

/-- The same capacity, and every byte reads the same. -/
abbrev SameMem (s t : State) : Prop := t.mem.cap = s.mem.cap ∧ ∀ k, t.mem.get k = s.mem.get k

/-- Register `rd` reads `v`, unless it is `x0`; every other register reads as before. -/
abbrev SetsReg (s t : State) (rd : RegIdx) (v : Word) : Prop :=
  ∀ r, t.readReg r = if r = rd ∧ r ≠ 0#5 then v else s.readReg r

/-- The program counter is `(A + 4) mod CAP`, as numbers (10_state.md R25). -/
abbrev Advances (s t : State) : Prop := t.pc.toNat = (s.pc.toNat + 4) % s.mem.cap

/-- The effect of an instruction whose one result is a register: `rd` reads `v`, the program counter
has advanced, and nothing else is different (41_op_alu.md R120; 10_state.md R26, R31). -/
abbrev RegResult (s t : State) (rd : RegIdx) (v : Word) : Prop :=
  SetsReg s t rd v ∧ Advances s t ∧ t.run = s.run ∧ SameMem s t

/-- The `n` bytes at `ea` are the low `n` bytes of `v`, little-endian; every other byte, every register
and the run state are as before; the program counter has advanced (44_store.md R170). -/
abbrev StoreResult (s t : State) (ea v : Word) (n : Nat) : Prop :=
  (∀ i, i < n → (t.mem.get ((ea.toNat + i) % s.mem.cap)).toNat = v.toNat / 2 ^ (8 * i) % 2 ^ 8)
  ∧ (∀ k, (∀ i, i < n → k ≠ (ea.toNat + i) % s.mem.cap) → t.mem.get k = s.mem.get k)
  ∧ t.mem.cap = s.mem.cap ∧ SameRegs s t ∧ t.run = s.run ∧ Advances s t

/-- The indices of the bytes an instruction stores to, in the state it runs in: those of a 1, 2 or 4 byte
access at its effective address for SB, SH and SW, none for any other (44_store.md R170; 20_memory.md R43, R51). -/
def State.storedBytes (s : State) : Instr → List Nat
  | .sb rs1 _ imm => (List.range 1).map (s.mem.index (s.storeAddr rs1 imm))
  | .sh rs1 _ imm => (List.range 2).map (s.mem.index (s.storeAddr rs1 imm))
  | .sw rs1 _ imm => (List.range 4).map (s.mem.index (s.storeAddr rs1 imm))
  | .add .. | .sub .. | .sll .. | .slt .. | .sltu .. | .xor .. | .srl .. | .sra .. | .or .. | .and .. => []
  | .addi .. | .slti .. | .sltiu .. | .xori .. | .ori .. | .andi .. | .slli .. | .srli .. | .srai .. => []
  | .lb .. | .lh .. | .lw .. | .lbu .. | .lhu .. => []
  | .beq .. | .bne .. | .blt .. | .bge .. | .bltu .. | .bgeu .. => []
  | .jal .. | .jalr .. | .lui .. | .auipc .. | .fence .. | .system .. => []

/-- The program counter is `(A + off) mod 2^32` if the branch is taken and `(A + 4) mod CAP` if not;
nothing else is different (45_branch.md R180). -/
abbrev BranchResult (s t : State) (taken : Prop) (off : BitVec 13) : Prop :=
  (taken → (t.pc.toNat : Int) = (s.pc.toNat + off.toInt) % 2 ^ 32)
  ∧ (¬ taken → Advances s t) ∧ SameRegs s t ∧ t.run = s.run ∧ SameMem s t

/-- Byte `i` of an access at `a`, as a number (20_memory.md R41). -/
abbrev State.byteNum (s : State) (a : Word) (i : Nat) : Nat :=
  (s.mem.get ((a.toNat + i) % s.mem.cap)).toNat

/-! ## The invariant of a run -/

/-- A halt reason tells the truth about the state it is found in (60_exceptions.md R221 to R223, R228):
a misaligned program counter, or the fields of the undecodable word at it, or the SYSTEM word at it. -/
def State.haltExplained (s : State) : Bool :=
  match s.run with
  | .running => true
  | .halted (.alignmentFault p) => p == s.pc && s.pc.toNat % 4 == 2
  | .halted (.decodeError o f3 f7) =>
    s.pc.toNat % 4 == 0 && noMapping s.fetch && o.toNat == opNum s.fetch
      && f3.toNat == f3Num s.fetch && f7.toNat == f7Num s.fetch
  | .halted (.systemCall w) => s.pc.toNat % 4 == 0 && w == s.fetch && opNum w == 0x73

/-- Memory is in its canonical form (in particular no byte lies outside the array), the program
counter is even (60_exceptions.md R221: "`pc` is never odd"), and a halt reason is true. -/
abbrev State.Inv (s : State) : Prop :=
  s.mem.wf ∧ s.pc.toNat % 2 = 0 ∧ s.haltExplained = true

end Machine

end Sys2Proof
end

