-- ==== Sys2Proof/Certificates/Slice0/Obligations.lean ====
section
/-! DEFINITION. The statements for the provers. Results are stated in numbers (toNat, toInt), independent
of the operations the meanings use. No statement assumes a form away: register 0, an odd offset of a term
that has no word, every capacity from 4 to 2^32 and every alignment are covered. -/

open Sys2Proof Sys2Proof.Machine

/-! ## Encoding -/

/-- Words written out in the rules' own examples decode to the instructions they stand for
(R121, R141, R149, R163, R173, R182, R190, R191, R200, R201, R210, R212). -/
def Obligations.ExampleWordsDecode : Prop :=
  decode 0x002081B3#32 = .ok (.add 3 1 2)
  ∧ decode 0xFFF08093#32 = .ok (.addi 1 1 0xFFF)
  ∧ decode 0x4040D193#32 = .ok (.srai 3 1 4)
  ∧ decode 0xFFC0A183#32 = .ok (.lw 3 1 0xFFC)
  ∧ decode 0xFE20AE23#32 = .ok (.sw 1 2 0xFFC)
  ∧ decode 0xFE209EE3#32 = .ok (.bne 1 2 0x1FFC)
  ∧ decode 0xFF9FF0EF#32 = .ok (.jal 1 0x1FFFF8)
  ∧ decode 0x004280E7#32 = .ok (.jalr 1 5 4 0)
  ∧ decode 0x100002B7#32 = .ok (.lui 5 0x10000)
  ∧ decode 0xFFFFF197#32 = .ok (.auipc 3 0xFFFFF)
  ∧ decode 0x0FF0000F#32 = .ok (.fence 0x1FE000)
  ∧ decode 0x00100073#32 = .ok (.system 0x2000)

/-- A step of a Running engine whose program counter is a multiple of 4 runs the instruction that the
little-endian word at the program counter decodes to; that instruction is well formed; `step` adds nothing
around `exec` (R100, R102, R104 to R106). -/
def Obligations.StepRunsTheDecodedInstruction : Prop :=
  ∀ (s : State) (i : Instr), s.run = .running → s.pc.toNat % 4 = 0 →
    decode (s.mem.loadWord s.pc) = .ok i → i.wellFormed = true ∧ step s = exec i s

/-- Every operand at every value its field admits survives encoding and decoding (R72, R80 to R86). -/
def Obligations.DecodeOfEncodeIsTheInstruction : Prop :=
  ∀ i : Instr, i.wellFormed = true → decode (encode i) = .ok i

/-- No bit of a mapped word is lost: an instruction the decoder gives is well formed and its word is the
word that was decoded (R72, R80 to R86). -/
def Obligations.EncodeOfDecodeIsTheWord : Prop :=
  ∀ (w : Word) (i : Instr), decode w = .ok i → i.wellFormed = true ∧ encode i = w

/-- Dispatch and the 39 rows of the opcode table agree: a word that selects a row decodes to an
instruction of that row, a decoded word selects the row of its instruction, and no word selects two rows
(R91, an inference the spec marks as derived). -/
def Obligations.DispatchIsTheOpcodeTable : Prop :=
  opcodeTable.length = 39
  ∧ (∀ (w : Word), ∀ r ∈ opcodeTable, r.selects w → ∃ i, decode w = .ok i ∧ i.row = r)
  ∧ (∀ (w : Word) (i : Instr), decode w = .ok i → i.row ∈ opcodeTable ∧ i.row.selects w)
  ∧ (∀ (w : Word), ∀ r ∈ opcodeTable, ∀ q ∈ opcodeTable, r.selects w → q.selects w → r = q)

/-- The words the decoder rejects are exactly the seven cases of R87 (cases 3 and 4 rest on D6, the
opcode-only groups on D5). -/
def Obligations.RejectedWordsAreTheSevenCases : Prop :=
  ∀ w : Word, (∃ e, decode w = .error e) ↔ noMapping w = true

/-- The decoder returns the six fields of every word from their places (R71). -/
def Obligations.DecoderFieldPositions : Prop :=
  ∀ w : Word,
    (decodeFields w).opcode.toNat = w.toNat % 2 ^ 7
    ∧ (decodeFields w).rd.toNat = w.toNat / 2 ^ 7 % 2 ^ 5
    ∧ (decodeFields w).funct3.toNat = w.toNat / 2 ^ 12 % 2 ^ 3
    ∧ (decodeFields w).rs1.toNat = w.toNat / 2 ^ 15 % 2 ^ 5
    ∧ (decodeFields w).rs2.toNat = w.toNat / 2 ^ 20 % 2 ^ 5
    ∧ (decodeFields w).funct7.toNat = w.toNat / 2 ^ 25

/-- `immI` is the signed value of `inst[31:20]` and `immS` that of `inst[31:25]` above `inst[11:7]`
(R73, R74). -/
def Obligations.SignedTwelveBitImmediates : Prop :=
  ∀ w : Word,
    ((decodeFields w).immI.toInt =
      if w.toNat / 2 ^ 20 < 2 ^ 11 then (w.toNat / 2 ^ 20 : Int) else (w.toNat / 2 ^ 20 : Int) - 2 ^ 12)
    ∧ (∀ n : Nat, n = w.toNat / 2 ^ 25 * 2 ^ 5 + w.toNat / 2 ^ 7 % 2 ^ 5 →
        (decodeFields w).immS.toInt = if n < 2 ^ 11 then (n : Int) else (n : Int) - 2 ^ 12)

/-- `immB` puts imm[12], imm[11], imm[10:5] and imm[4:1] from `inst[31]`, `inst[7]`, `inst[30:25]` and
`inst[11:8]`, is signed, and is even (R75). -/
def Obligations.BranchImmediateScatter : Prop :=
  ∀ (w : Word) (n : Nat),
    n = w.toNat / 2 ^ 31 * 2 ^ 12 + w.toNat / 2 ^ 7 % 2 * 2 ^ 11 + w.toNat / 2 ^ 25 % 2 ^ 6 * 2 ^ 5
      + w.toNat / 2 ^ 8 % 2 ^ 4 * 2 →
    ((decodeFields w).immB.toInt = if n < 2 ^ 12 then (n : Int) else (n : Int) - 2 ^ 13)
    ∧ (decodeFields w).immB.toNat % 2 = 0
    ∧ -4096 ≤ (decodeFields w).immB.toInt ∧ (decodeFields w).immB.toInt ≤ 4094

/-- `immJ` puts imm[20], imm[19:12], imm[11] and imm[10:1] from `inst[31]`, `inst[19:12]`, `inst[20]` and
`inst[30:21]`, is signed, 21 bits wide, and is even (R77). -/
def Obligations.JumpImmediateScatter : Prop :=
  ∀ (w : Word) (n : Nat),
    n = w.toNat / 2 ^ 31 * 2 ^ 20 + w.toNat / 2 ^ 12 % 2 ^ 8 * 2 ^ 12 + w.toNat / 2 ^ 20 % 2 * 2 ^ 11
      + w.toNat / 2 ^ 21 % 2 ^ 10 * 2 →
    ((decodeFields w).immJ.toInt = if n < 2 ^ 20 then (n : Int) else (n : Int) - 2 ^ 21)
    ∧ (decodeFields w).immJ.toNat % 2 = 0
    ∧ -1048576 ≤ (decodeFields w).immJ.toInt ∧ (decodeFields w).immJ.toInt ≤ 1048574

/-- `immU` is the word with its low 12 bits cleared; `shamt` is `inst[24:20]`, the low five bits of `immI`
(R76, R78). -/
def Obligations.UpperImmediateAndShiftAmount : Prop :=
  ∀ w : Word,
    (decodeFields w).immU.toNat = w.toNat / 2 ^ 12 * 2 ^ 12
    ∧ (decodeFields w).immU = w &&& 0xFFFFF000#32
    ∧ (decodeFields w).shamt.toNat = w.toNat / 2 ^ 20 % 2 ^ 5
    ∧ (decodeFields w).shamt.toNat = (decodeFields w).immI.toNat % 2 ^ 5

/-- The operands of a decoded instruction are the fields and extended immediates of its format
(R72, R79; SLTIU keeps its raw field, R143). -/
def Obligations.DecodedOperandsAreTheFields : Prop :=
  ∀ (w : Word) (i : Instr), decode w = .ok i → i.operandsFrom w (decodeFields w)

/-! ## The step and the halts -/

/-- A Running engine always has a next state, and its run state is decided in this order: AlignmentFault
for a program counter that is no multiple of 4, DecodeError with the three fields for a word of R87,
SystemCall with the word for opcode 0x73, else Running (R101, R105, R112, R213, R227; the payloads and the
SYSTEM halt are the spec's decisions D4, D12, D21). -/
def Obligations.RunningStepOutcome : Prop :=
  ∀ s : State, s.run = .running → ∃ t, step s = .next t ∧ t.run =
    if s.pc.toNat % 4 ≠ 0 then .halted (.alignmentFault s.pc)
    else if noMapping (s.mem.loadWord s.pc) = true then
      .halted (.decodeError (BitVec.ofNat 7 (opNum (s.mem.loadWord s.pc)))
        (BitVec.ofNat 3 (f3Num (s.mem.loadWord s.pc))) (BitVec.ofNat 7 (f7Num (s.mem.loadWord s.pc))))
    else if opNum (s.mem.loadWord s.pc) = 0x73 then .halted (.systemCall (s.mem.loadWord s.pc))
    else .running

/-- A step that halts changes the run state and nothing else: registers, memory and the program counter
are those of before (R228; that the program counter is kept is the spec's decision D7). -/
def Obligations.HaltChangesOnlyTheRunState : Prop :=
  ∀ (s t : State) (reason : HaltReason), step s = .next t → t.run = .halted reason →
    t = { s with run := .halted reason }

/-- No step leaves a Halted state, and a run stays in it (R107; that no step is defined there is the
spec's decision D14, and the model's fault is log entry 2). -/
def Obligations.HaltedIsTerminal : Prop :=
  ∀ (s : State) (reason : HaltReason), s.run = .halted reason →
    step s = .fault .engineHalted ∧ ∀ n, s.runUpTo n = s

/-- The all-zero word, which memory beyond an image holds, halts with DecodeError(0, 0, 0) and the program
counter at that word (R222, R255). -/
def Obligations.ZeroWordHaltsWithDecodeError : Prop :=
  ∀ s : State, s.run = .running → s.pc.toNat % 4 = 0 → s.mem.loadWord s.pc = 0#32 →
    step s = .next { s with run := .halted (.decodeError 0 0 0) }

/-- SYSTEM, whatever its 25 bits above the opcode, completes by halting with its whole word and changes
nothing else (R212, R213; the halt and its payload are the spec's decisions D4 and D12). -/
def Obligations.SystemHaltsWithItsWord : Prop :=
  ∀ (s : State) (payload : BitVec 25), ∃ w : Word, w.toNat = payload.toNat * 2 ^ 7 + 0x73
    ∧ w = encode (.system payload)
    ∧ exec (.system payload) s = .next { s with run := .halted (.systemCall w) }

/-! ## Reset -/

/-- `State.reset` is the reset with the empty image at the reference capacity: registers 0, program counter
0, Running, 4096 bytes of 0 (R37, R6; the choice of image is log entry 6). -/
def Obligations.ResetValues : Prop :=
  (∀ r, State.reset.readReg r = 0#32) ∧ State.reset.pc = 0#32 ∧ State.reset.run = .running
  ∧ State.reset.mem.cap = 4096 ∧ (∀ k, State.reset.mem.get k = 0#8)
  ∧ boot Config.referenceCapExp [] = .next State.reset

/-- Reset with an image of at most CAP bytes: the image at address 0, zeros after it, registers and program
counter 0, Running (R37). -/
def Obligations.BootLoadsTheImage : Prop :=
  ∀ (c : Fin 31) (image : List Byte), image.length ≤ 2 ^ (c.val + 2) →
    ∃ s, boot c image = .next s ∧ s.mem.cap = 2 ^ (c.val + 2)
      ∧ (∀ r, s.readReg r = 0#32) ∧ s.pc = 0#32 ∧ s.run = .running
      ∧ (∀ k, (h : k < image.length) → s.mem.get k = image[k])
      ∧ (∀ k, image.length ≤ k → s.mem.get k = 0#8)

/-- Reset with an image longer than memory reports LoadOverflow and creates no engine state
(R253, the spec's decision D3). -/
def Obligations.BootRefusesAnOverlongImage : Prop :=
  ∀ (c : Fin 31) (image : List Byte), 2 ^ (c.val + 2) < image.length →
    boot c image = .refused .loadOverflow

/-! ## The invariant of a run -/

/-- Every step keeps the invariant: canonical memory inside the array, an even program counter, and a halt
reason that is true of the state (R221 to R223, R228). -/
def Obligations.StepKeepsTheInvariant : Prop :=
  ∀ s t : State, s.Inv → step s = .next t → t.Inv

/-- `State.reset` meets the invariant that every step keeps (R37; log entry 6). -/
def Obligations.ResetMeetsTheInvariant : Prop := State.reset.Inv

/-- Every engine that reset creates, at every capacity and with every image, meets the invariant (R250). -/
def Obligations.BootMeetsTheInvariant : Prop :=
  ∀ (c : Fin 31) (image : List Byte) (s : State), boot c image = .next s → s.Inv

/-- The capacity is fixed for the life of an engine (R36, R40). -/
def Obligations.StepKeepsTheCapacity : Prop :=
  ∀ s t : State, step s = .next t → t.mem.cap = s.mem.cap

/-- The frame of a step: no register but the destination of the instruction it runs, and no byte but those
that instruction stores to, which are at most four, `(ea + i) mod CAP` for SB, SH and SW and none for any
other; a step that runs no instruction changes no register and no byte (R112, an inference the spec marks as
derived). -/
def Obligations.StepWritesAtMostOneRegisterAndFourBytes : Prop :=
  ∀ s t : State, step s = .next t →
    (∀ i : Instr, s.pc.toNat % 4 = 0 → decode (s.mem.loadWord s.pc) = .ok i →
      (∀ r, i.dest ≠ some r → t.readReg r = s.readReg r)
      ∧ (s.storedBytes i).length ≤ 4
      ∧ (∀ k, k ∉ s.storedBytes i → t.mem.get k = s.mem.get k)
      ∧ (∀ rs1 rs2 imm k, i = .sb rs1 rs2 imm →
          (k ∈ s.storedBytes i ↔ ∃ j, j < 1 ∧ k = ((s.storeAddr rs1 imm).toNat + j) % s.mem.cap))
      ∧ (∀ rs1 rs2 imm k, i = .sh rs1 rs2 imm →
          (k ∈ s.storedBytes i ↔ ∃ j, j < 2 ∧ k = ((s.storeAddr rs1 imm).toNat + j) % s.mem.cap))
      ∧ (∀ rs1 rs2 imm k, i = .sw rs1 rs2 imm →
          (k ∈ s.storedBytes i ↔ ∃ j, j < 4 ∧ k = ((s.storeAddr rs1 imm).toNat + j) % s.mem.cap))
      ∧ (i.isStore = false → SameMem s t))
    ∧ (s.pc.toNat % 4 ≠ 0 ∨ noMapping (s.mem.loadWord s.pc) = true → SameRegs s t ∧ SameMem s t)

/-! ## Memory -/

/-- Byte `i` of an access is the byte at `(a + i) mod CAP`, whether or not `a + i` is first wrapped to 32
bits, and addresses that differ by a multiple of CAP name the same bytes (R41). -/
def Obligations.AddressesReduceModuloCapacity : Prop :=
  ∀ (m : Memory) (a : Word) (i k : Nat),
    m.byteAt a i = m.get ((a.toNat + i) % m.cap)
    ∧ m.byteAt a i = m.get ((a.toNat + i) % 2 ^ 32 % m.cap)
    ∧ m.byteAt (a + BitVec.ofNat 32 (k * m.cap)) i = m.byteAt a i

/-- Reads are little-endian sums of the bytes at `(a + i) mod CAP` (R42). -/
def Obligations.ReadsAreLittleEndian : Prop :=
  ∀ (m : Memory) (a : Word),
    (m.loadByte a).toNat = (m.get (a.toNat % m.cap)).toNat
    ∧ (m.loadHalf a).toNat =
        (m.get (a.toNat % m.cap)).toNat + (m.get ((a.toNat + 1) % m.cap)).toNat * 2 ^ 8
    ∧ (m.loadWord a).toNat =
        (m.get (a.toNat % m.cap)).toNat + (m.get ((a.toNat + 1) % m.cap)).toNat * 2 ^ 8
          + (m.get ((a.toNat + 2) % m.cap)).toNat * 2 ^ 16 + (m.get ((a.toNat + 3) % m.cap)).toNat * 2 ^ 24

/-- A read after a write of the same width at the same address, or at an alias of it, gives the value
written; the address may be any, also one whose bytes wrap (R47). -/
def Obligations.StoreThenLoadReturnsTheValue : Prop :=
  ∀ (m : Memory) (a b w : Word), b.toNat % m.cap = a.toNat % m.cap →
    (m.storeWord a w).loadWord b = w
    ∧ ((m.storeHalf a w).loadHalf b).toNat = w.toNat % 2 ^ 16
    ∧ ((m.storeByte a w).loadByte b).toNat = w.toNat % 2 ^ 8

/-- Narrower reads of a stored word give its bytes and half-words, at any address and across the end of
memory, and a narrower store changes only its own bytes of a word read later (R45, an inference the spec marks
as derived). -/
def Obligations.NarrowerAccessesSeeTheBytesOfAWord : Prop :=
  ∀ (m : Memory) (a w : Word) (i : Nat),
    (i < 4 → ((m.storeWord a w).loadByte (a + BitVec.ofNat 32 i)).toNat = w.toNat / 2 ^ (8 * i) % 2 ^ 8)
    ∧ (i < 3 → ((m.storeWord a w).loadHalf (a + BitVec.ofNat 32 i)).toNat = w.toNat / 2 ^ (8 * i) % 2 ^ 16)
    ∧ ((m.storeByte a w).loadWord a).toNat = (m.loadWord a).toNat / 2 ^ 8 * 2 ^ 8 + w.toNat % 2 ^ 8
    ∧ ((m.storeHalf a w).loadWord a).toNat = (m.loadWord a).toNat / 2 ^ 16 * 2 ^ 16 + w.toNat % 2 ^ 16

/-- Two canonical memories of one capacity that read the same at every index are the same data (the model's
canonical form, log entry 3; R36 "Two states are equal when all four components are equal"). -/
def Obligations.CanonicalMemoriesAreDeterminedByTheirBytes : Prop :=
  ∀ m n : Memory, m.wf → n.wf → m.capExp = n.capExp → (∀ k, m.get k = n.get k) → m = n

/-! ## Registers -/

/-- Register 0 reads 0 in every state and drops writes, any other register reads back the value written, no
write changes another register; an instruction whose destination is register 0 changes no register and does
everything else it does: it completes, and the program counter advances, or for a jump goes where the same
jump with any other destination goes (R21). -/
def Obligations.RegisterZeroIsHardwired : Prop :=
  ∀ (s : State) (r : RegIdx) (v : Word),
    s.readReg 0 = 0#32 ∧ s.writeReg 0 v = s
    ∧ (r ≠ 0#5 → (s.writeReg r v).readReg r = v)
    ∧ (∀ q, q ≠ r → (s.writeReg r v).readReg q = s.readReg q)
    ∧ (∀ i : Instr, i.dest = some 0#5 →
        ∃ t, exec i s = .next t ∧ SameRegs s t ∧ SameMem s t ∧ t.run = s.run
          ∧ (i.isTransfer = false → Advances s t)
          ∧ (∀ off rd u, i = .jal 0 off → exec (.jal rd off) s = .next u → t.pc = u.pc)
          ∧ (∀ rs1 imm ignored rd u, i = .jalr 0 rs1 imm ignored →
              exec (.jalr rd rs1 imm ignored) s = .next u → t.pc = u.pc))

/-- Which registers an instruction reads and writes: two states that agree on its sources, the program
counter, the run state and memory give results that agree on all of these and on its destination, and every
other register keeps its value in both (10_state.md section 1, the table of which instructions read and write the
file; that the reads come before the write is stated by the results of the instructions). -/
def Obligations.OnlySourcesAreReadAndOnlyTheDestinationWritten : Prop :=
  ∀ (i : Instr) (s u : State), (∀ r ∈ i.sources, s.readReg r = u.readReg r) →
    s.pc = u.pc → s.run = u.run → s.mem = u.mem →
    ∃ t v, exec i s = .next t ∧ exec i u = .next v ∧ t.pc = v.pc ∧ t.run = v.run ∧ t.mem = v.mem
      ∧ (∀ r, i.dest = some r → t.readReg r = v.readReg r)
      ∧ (∀ r, i.dest ≠ some r → t.readReg r = s.readReg r ∧ v.readReg r = u.readReg r)

/-! ## R-type ALU group -/

/-- ADD and SUB wrap modulo 2^32 (R121, R122). -/
def Obligations.AddAndSubWrap : Prop :=
  ∀ (s : State) (rd rs1 rs2 : RegIdx),
    (∃ t v, exec (.add rd rs1 rs2) s = .next t ∧ RegResult s t rd v
      ∧ v.toNat = ((s.readReg rs1).toNat + (s.readReg rs2).toNat) % 2 ^ 32)
    ∧ (∃ t v, exec (.sub rd rs1 rs2) s = .next t ∧ RegResult s t rd v
      ∧ (v.toNat : Int) = ((s.readReg rs1).toNat - (s.readReg rs2).toNat : Int) % 2 ^ 32)
    ∧ encode (.add rd rs1 rs2) &&& 0xFE00707F#32 = 0x00000033#32
    ∧ encode (.sub rd rs1 rs2) &&& 0xFE00707F#32 = 0x40000033#32

/-- SLL, SRL and SRA shift by the low five bits of `x[rs2]`: times, divided by, and floor-divided by a power
of two (R123, R127, R128). -/
def Obligations.RegisterShifts : Prop :=
  ∀ (s : State) (rd rs1 rs2 : RegIdx),
    (∃ t v, exec (.sll rd rs1 rs2) s = .next t ∧ RegResult s t rd v
      ∧ v.toNat = (s.readReg rs1).toNat * 2 ^ ((s.readReg rs2).toNat % 32) % 2 ^ 32)
    ∧ (∃ t v, exec (.srl rd rs1 rs2) s = .next t ∧ RegResult s t rd v
      ∧ v.toNat = (s.readReg rs1).toNat / 2 ^ ((s.readReg rs2).toNat % 32))
    ∧ (∃ t v, exec (.sra rd rs1 rs2) s = .next t ∧ RegResult s t rd v
      ∧ v.toInt = (s.readReg rs1).toInt / 2 ^ ((s.readReg rs2).toNat % 32))
    ∧ encode (.sll rd rs1 rs2) &&& 0xFE00707F#32 = 0x00001033#32
    ∧ encode (.srl rd rs1 rs2) &&& 0xFE00707F#32 = 0x00005033#32
    ∧ encode (.sra rd rs1 rs2) &&& 0xFE00707F#32 = 0x40005033#32

/-- SLT compares two's-complement numbers and gives 1 or 0 (R124). -/
def Obligations.SetLessThanSigned : Prop :=
  ∀ (s : State) (rd rs1 rs2 : RegIdx),
    (∃ t v, exec (.slt rd rs1 rs2) s = .next t ∧ RegResult s t rd v
      ∧ v.toNat = if (s.readReg rs1).toInt < (s.readReg rs2).toInt then 1 else 0)
    ∧ encode (.slt rd rs1 rs2) &&& 0xFE00707F#32 = 0x00002033#32

/-- SLTU compares unsigned numbers over the full 32 bits and gives 1 or 0 (41_op_alu.md, SLTU; the width is
the spec's decision D1). -/
def Obligations.SetLessThanUnsigned : Prop :=
  ∀ (s : State) (rd rs1 rs2 : RegIdx),
    (∃ t v, exec (.sltu rd rs1 rs2) s = .next t ∧ RegResult s t rd v
      ∧ v.toNat = if (s.readReg rs1).toNat < (s.readReg rs2).toNat then 1 else 0)
    ∧ encode (.sltu rd rs1 rs2) &&& 0xFE00707F#32 = 0x00003033#32

/-- XOR, OR and AND bit by bit (R126, R129, R130). -/
def Obligations.RegisterBitwise : Prop :=
  ∀ (s : State) (rd rs1 rs2 : RegIdx),
    (∃ t v, exec (.xor rd rs1 rs2) s = .next t ∧ RegResult s t rd v
      ∧ ∀ i, v.getLsbD i = ((s.readReg rs1).getLsbD i != (s.readReg rs2).getLsbD i))
    ∧ (∃ t v, exec (.or rd rs1 rs2) s = .next t ∧ RegResult s t rd v
      ∧ ∀ i, v.getLsbD i = ((s.readReg rs1).getLsbD i || (s.readReg rs2).getLsbD i))
    ∧ (∃ t v, exec (.and rd rs1 rs2) s = .next t ∧ RegResult s t rd v
      ∧ ∀ i, v.getLsbD i = ((s.readReg rs1).getLsbD i && (s.readReg rs2).getLsbD i))
    ∧ encode (.xor rd rs1 rs2) &&& 0xFE00707F#32 = 0x00004033#32
    ∧ encode (.or rd rs1 rs2) &&& 0xFE00707F#32 = 0x00006033#32
    ∧ encode (.and rd rs1 rs2) &&& 0xFE00707F#32 = 0x00007033#32

/-! ## I-type ALU group -/

/-- ADDI adds the signed 12-bit immediate and wraps (R141). -/
def Obligations.AddImmediateWraps : Prop :=
  ∀ (s : State) (rd rs1 : RegIdx) (imm : BitVec 12),
    (∃ t v, exec (.addi rd rs1 imm) s = .next t ∧ RegResult s t rd v
      ∧ (v.toNat : Int) = ((s.readReg rs1).toNat + imm.toInt) % 2 ^ 32)
    ∧ encode (.addi rd rs1 imm) &&& 0x0000707F#32 = 0x00000013#32

/-- SLTI compares with the signed immediate (R142). -/
def Obligations.SetLessThanImmediateSigned : Prop :=
  ∀ (s : State) (rd rs1 : RegIdx) (imm : BitVec 12),
    (∃ t v, exec (.slti rd rs1 imm) s = .next t ∧ RegResult s t rd v
      ∧ v.toNat = if (s.readReg rs1).toInt < imm.toInt then 1 else 0)
    ∧ encode (.slti rd rs1 imm) &&& 0x0000707F#32 = 0x00002013#32

/-- SLTIU compares with the ZERO-extended immediate, 0 to 4095 (42_op_imm_alu.md, SLTIU; the spec's decision
D22 and conflict C2; log entry 5). -/
def Obligations.SetLessThanImmediateUnsigned : Prop :=
  ∀ (s : State) (rd rs1 : RegIdx) (imm : BitVec 12),
    (∃ t v, exec (.sltiu rd rs1 imm) s = .next t ∧ RegResult s t rd v
      ∧ v.toNat = if (s.readReg rs1).toNat < imm.toNat then 1 else 0)
    ∧ encode (.sltiu rd rs1 imm) &&& 0x0000707F#32 = 0x00003013#32

/-- XORI, ORI and ANDI use the sign-extended immediate: bit 11 of the field stands in every bit from 11 up
(R144, R145, R146). -/
def Obligations.ImmediateBitwise : Prop :=
  ∀ (s : State) (rd rs1 : RegIdx) (imm : BitVec 12),
    (∃ t v, exec (.xori rd rs1 imm) s = .next t ∧ RegResult s t rd v
      ∧ ∀ i, i < 32 → v.getLsbD i = ((s.readReg rs1).getLsbD i != imm.getLsbD (min i 11)))
    ∧ (∃ t v, exec (.ori rd rs1 imm) s = .next t ∧ RegResult s t rd v
      ∧ ∀ i, i < 32 → v.getLsbD i = ((s.readReg rs1).getLsbD i || imm.getLsbD (min i 11)))
    ∧ (∃ t v, exec (.andi rd rs1 imm) s = .next t ∧ RegResult s t rd v
      ∧ ∀ i, i < 32 → v.getLsbD i = ((s.readReg rs1).getLsbD i && imm.getLsbD (min i 11)))
    ∧ encode (.xori rd rs1 imm) &&& 0x0000707F#32 = 0x00004013#32
    ∧ encode (.ori rd rs1 imm) &&& 0x0000707F#32 = 0x00006013#32
    ∧ encode (.andi rd rs1 imm) &&& 0x0000707F#32 = 0x00007013#32

/-- SLLI, SRLI and SRAI shift by the five-bit amount (42_op_imm_alu.md, SLLI, SRLI, SRAI; that a bad funct7 is
undecodable is the spec's decision D6 and is stated by RejectedWordsAreTheSevenCases). -/
def Obligations.ImmediateShifts : Prop :=
  ∀ (s : State) (rd rs1 : RegIdx) (shamt : BitVec 5),
    (∃ t v, exec (.slli rd rs1 shamt) s = .next t ∧ RegResult s t rd v
      ∧ v.toNat = (s.readReg rs1).toNat * 2 ^ shamt.toNat % 2 ^ 32)
    ∧ (∃ t v, exec (.srli rd rs1 shamt) s = .next t ∧ RegResult s t rd v
      ∧ v.toNat = (s.readReg rs1).toNat / 2 ^ shamt.toNat)
    ∧ (∃ t v, exec (.srai rd rs1 shamt) s = .next t ∧ RegResult s t rd v
      ∧ v.toInt = (s.readReg rs1).toInt / 2 ^ shamt.toNat)
    ∧ encode (.slli rd rs1 shamt) &&& 0xFE00707F#32 = 0x00001013#32
    ∧ encode (.srli rd rs1 shamt) &&& 0xFE00707F#32 = 0x00005013#32
    ∧ encode (.srai rd rs1 shamt) &&& 0xFE00707F#32 = 0x40005013#32

/-! ## Loads and stores -/

/-- LB and LBU at `x[rs1]` plus the signed offset modulo 2^32: the byte as a signed and as an unsigned number
(R161, R164). -/
def Obligations.LoadByteExtends : Prop :=
  ∀ (s : State) (rd rs1 : RegIdx) (imm : BitVec 12),
    ((s.loadAddr rs1 imm).toNat : Int) = ((s.readReg rs1).toNat + imm.toInt) % 2 ^ 32
    ∧ (∃ t v, exec (.lb rd rs1 imm) s = .next t ∧ RegResult s t rd v
      ∧ v.toInt = if s.byteNum (s.loadAddr rs1 imm) 0 < 2 ^ 7 then (s.byteNum (s.loadAddr rs1 imm) 0 : Int)
          else (s.byteNum (s.loadAddr rs1 imm) 0 : Int) - 2 ^ 8)
    ∧ (∃ t v, exec (.lbu rd rs1 imm) s = .next t ∧ RegResult s t rd v
      ∧ v.toNat = s.byteNum (s.loadAddr rs1 imm) 0)
    ∧ encode (.lb rd rs1 imm) &&& 0x0000707F#32 = 0x00000003#32
    ∧ encode (.lbu rd rs1 imm) &&& 0x0000707F#32 = 0x00004003#32

/-- LH and LHU: the little-endian half-word at any address as a signed and as an unsigned number; the second
byte of an access at the last index is byte 0 (R162, R165). -/
def Obligations.LoadHalfExtends : Prop :=
  ∀ (s : State) (rd rs1 : RegIdx) (imm : BitVec 12) (h : Nat),
    h = s.byteNum (s.loadAddr rs1 imm) 0 + s.byteNum (s.loadAddr rs1 imm) 1 * 2 ^ 8 →
    ((s.loadAddr rs1 imm).toNat : Int) = ((s.readReg rs1).toNat + imm.toInt) % 2 ^ 32
    ∧ (∃ t v, exec (.lh rd rs1 imm) s = .next t ∧ RegResult s t rd v
      ∧ v.toInt = if h < 2 ^ 15 then (h : Int) else (h : Int) - 2 ^ 16)
    ∧ (∃ t v, exec (.lhu rd rs1 imm) s = .next t ∧ RegResult s t rd v ∧ v.toNat = h)
    ∧ encode (.lh rd rs1 imm) &&& 0x0000707F#32 = 0x00001003#32
    ∧ encode (.lhu rd rs1 imm) &&& 0x0000707F#32 = 0x00005003#32

/-- LW: the little-endian word at any address (R163). -/
def Obligations.LoadWordReadsFourBytes : Prop :=
  ∀ (s : State) (rd rs1 : RegIdx) (imm : BitVec 12),
    ((s.loadAddr rs1 imm).toNat : Int) = ((s.readReg rs1).toNat + imm.toInt) % 2 ^ 32
    ∧ (∃ t v, exec (.lw rd rs1 imm) s = .next t ∧ RegResult s t rd v
      ∧ v.toNat = s.byteNum (s.loadAddr rs1 imm) 0 + s.byteNum (s.loadAddr rs1 imm) 1 * 2 ^ 8
          + s.byteNum (s.loadAddr rs1 imm) 2 * 2 ^ 16 + s.byteNum (s.loadAddr rs1 imm) 3 * 2 ^ 24)
    ∧ encode (.lw rd rs1 imm) &&& 0x0000707F#32 = 0x00002003#32

/-- SB, SH and SW at `x[rs1]` plus the signed offset modulo 2^32 write the low 1, 2 and 4 bytes of `x[rs2]`,
little-endian and each address modulo CAP, and change no other byte and no register (R171, R172, R173). -/
def Obligations.StoresWriteTheirBytesOnly : Prop :=
  ∀ (s : State) (rs1 rs2 : RegIdx) (imm : BitVec 12),
    ((s.storeAddr rs1 imm).toNat : Int) = ((s.readReg rs1).toNat + imm.toInt) % 2 ^ 32
    ∧ (∃ t, exec (.sb rs1 rs2 imm) s = .next t ∧ StoreResult s t (s.storeAddr rs1 imm) (s.readReg rs2) 1)
    ∧ (∃ t, exec (.sh rs1 rs2 imm) s = .next t ∧ StoreResult s t (s.storeAddr rs1 imm) (s.readReg rs2) 2)
    ∧ (∃ t, exec (.sw rs1 rs2 imm) s = .next t ∧ StoreResult s t (s.storeAddr rs1 imm) (s.readReg rs2) 4)
    ∧ encode (.sb rs1 rs2 imm) &&& 0x0000707F#32 = 0x00000023#32
    ∧ encode (.sh rs1 rs2 imm) &&& 0x0000707F#32 = 0x00001023#32
    ∧ encode (.sw rs1 rs2 imm) &&& 0x0000707F#32 = 0x00002023#32

/-- A word stored over the next instruction is what the next fetch reads (20_memory.md, instruction-fetch
coherence, an inference the spec marks as derived). -/
def Obligations.StoreIsSeenByTheNextFetch : Prop :=
  ∀ (s : State) (rs1 rs2 : RegIdx) (imm : BitVec 12),
    (s.storeAddr rs1 imm).toNat % s.mem.cap = (s.pc.toNat + 4) % s.mem.cap →
    ∃ t, exec (.sw rs1 rs2 imm) s = .next t ∧ t.mem.loadWord t.pc = s.readReg rs2

/-- Only SB, SH and SW change memory: a step after which some byte reads differently ran a store
(10_state.md section 5). -/
def Obligations.OnlyStoresChangeMemory : Prop :=
  ∀ s t : State, step s = .next t → (∃ k, t.mem.get k ≠ s.mem.get k) →
    ∃ i, decode (s.mem.loadWord s.pc) = .ok i ∧ i.isStore = true

/-! ## Branches and jumps -/

/-- BEQ and BNE (45_branch.md, BEQ and BNE; the unreduced target is the spec's decision D9). -/
def Obligations.BranchOnEquality : Prop :=
  ∀ (s : State) (rs1 rs2 : RegIdx) (off : BitVec 13),
    (∃ t, exec (.beq rs1 rs2 off) s = .next t ∧ BranchResult s t (s.readReg rs1 = s.readReg rs2) off)
    ∧ (∃ t, exec (.bne rs1 rs2 off) s = .next t ∧ BranchResult s t (s.readReg rs1 ≠ s.readReg rs2) off)
    ∧ encode (.beq rs1 rs2 off) &&& 0x0000707F#32 = 0x00000063#32
    ∧ encode (.bne rs1 rs2 off) &&& 0x0000707F#32 = 0x00001063#32

/-- BLT and BGE compare two's-complement numbers (45_branch.md, BLT and BGE; the unreduced target is the spec's
decision D9). -/
def Obligations.BranchOnSignedOrder : Prop :=
  ∀ (s : State) (rs1 rs2 : RegIdx) (off : BitVec 13),
    (∃ t, exec (.blt rs1 rs2 off) s = .next t
      ∧ BranchResult s t ((s.readReg rs1).toInt < (s.readReg rs2).toInt) off)
    ∧ (∃ t, exec (.bge rs1 rs2 off) s = .next t
      ∧ BranchResult s t ((s.readReg rs1).toInt ≥ (s.readReg rs2).toInt) off)
    ∧ encode (.blt rs1 rs2 off) &&& 0x0000707F#32 = 0x00004063#32
    ∧ encode (.bge rs1 rs2 off) &&& 0x0000707F#32 = 0x00005063#32

/-- BLTU and BGEU compare unsigned numbers over the full 32 bits (45_branch.md, BLTU and BGEU; the width is
the spec's decision D1, the unreduced target D9). -/
def Obligations.BranchOnUnsignedOrder : Prop :=
  ∀ (s : State) (rs1 rs2 : RegIdx) (off : BitVec 13),
    (∃ t, exec (.bltu rs1 rs2 off) s = .next t
      ∧ BranchResult s t ((s.readReg rs1).toNat < (s.readReg rs2).toNat) off)
    ∧ (∃ t, exec (.bgeu rs1 rs2 off) s = .next t
      ∧ BranchResult s t ((s.readReg rs1).toNat ≥ (s.readReg rs2).toNat) off)
    ∧ encode (.bltu rs1 rs2 off) &&& 0x0000707F#32 = 0x00006063#32
    ∧ encode (.bgeu rs1 rs2 off) &&& 0x0000707F#32 = 0x00007063#32

/-- JAL writes A + 4 and goes to A plus the signed offset, both modulo 2^32 and neither reduced modulo CAP
(46_jump.md, JAL; the unreduced link and target are the spec's decisions D8 and D9). -/
def Obligations.JalLinksAndJumps : Prop :=
  ∀ (s : State) (rd : RegIdx) (off : BitVec 21),
    (∃ t link, exec (.jal rd off) s = .next t ∧ SetsReg s t rd link
      ∧ link.toNat = (s.pc.toNat + 4) % 2 ^ 32
      ∧ (t.pc.toNat : Int) = (s.pc.toNat + off.toInt) % 2 ^ 32
      ∧ t.run = s.run ∧ SameMem s t)
    ∧ encode (.jal rd off) &&& 0x0000007F#32 = 0x0000006F#32

/-- JALR writes A + 4 and goes to the old `x[rs1]` plus the signed offset with bit 0 cleared, whatever its
funct3 (46_jump.md, JALR; the spec's decisions D5, D8 and D9). -/
def Obligations.JalrLinksAndJumps : Prop :=
  ∀ (s : State) (rd rs1 : RegIdx) (imm : BitVec 12) (ignored : BitVec 3),
    (∃ t link, exec (.jalr rd rs1 imm ignored) s = .next t ∧ SetsReg s t rd link
      ∧ link.toNat = (s.pc.toNat + 4) % 2 ^ 32
      ∧ (t.pc.toNat : Int) = ((s.readReg rs1).toNat + imm.toInt) % 2 ^ 32 / 2 * 2
      ∧ t.run = s.run ∧ SameMem s t)
    ∧ encode (.jalr rd rs1 imm ignored) &&& 0x0000007F#32 = 0x00000067#32

/-- Every instruction but branches, jumps and SYSTEM leaves the program counter at (A + 4) mod CAP; from a
multiple of 4 that is a multiple of 4 in 0 .. CAP - 4. SYSTEM leaves it at A (R26, R27, R103; the value at a
halt is the spec's decision D7). -/
def Obligations.SequentialAdvanceStaysAligned : Prop :=
  ∀ (i : Instr) (s : State), i.isTransfer = false →
    ∃ t, exec i s = .next t ∧
      (if i.isSystem = true then t.pc = s.pc
       else t.pc.toNat = (s.pc.toNat + 4) % s.mem.cap
         ∧ (s.pc.toNat % 4 = 0 → t.pc.toNat % 4 = 0 ∧ t.pc.toNat + 4 ≤ s.mem.cap))

/-- A program counter that is no multiple of 4 arises only from a branch or jump, is then 2 modulo 4, and the
next step halts with AlignmentFault carrying it: the transfer itself has completed (R192, R221; the spec's
decisions D9 and D12). -/
def Obligations.MisalignedTargetHaltsAtTheNextFetch : Prop :=
  ∀ s t : State, step s = .next t → t.run = .running → t.pc.toNat % 4 ≠ 0 →
    (∃ i, decode (s.mem.loadWord s.pc) = .ok i ∧ i.isTransfer = true)
    ∧ t.pc.toNat % 4 = 2
    ∧ step t = .next { t with run := .halted (.alignmentFault t.pc) }

/-! ## Upper immediates, FENCE -/

/-- LUI puts its field in bits 31:12; AUIPC adds that to its own, unreduced address (R200, R201). -/
def Obligations.UpperImmediates : Prop :=
  ∀ (s : State) (rd : RegIdx) (imm : BitVec 20),
    (∃ t v, exec (.lui rd imm) s = .next t ∧ RegResult s t rd v ∧ v.toNat = imm.toNat * 2 ^ 12)
    ∧ (∃ t v, exec (.auipc rd imm) s = .next t ∧ RegResult s t rd v
      ∧ v.toNat = (s.pc.toNat + imm.toNat * 2 ^ 12) % 2 ^ 32)
    ∧ encode (.lui rd imm) &&& 0x0000007F#32 = 0x00000037#32
    ∧ encode (.auipc rd imm) &&& 0x0000007F#32 = 0x00000017#32

/-- FENCE, whatever its 25 bits above the opcode, advances and changes nothing else (R210). -/
def Obligations.FenceOnlyAdvances : Prop :=
  ∀ (s : State) (ignored : BitVec 25),
    (∃ t, exec (.fence ignored) s = .next t ∧ SameRegs s t ∧ SameMem s t ∧ t.run = s.run ∧ Advances s t)
    ∧ encode (.fence ignored) &&& 0x0000007F#32 = 0x0000000F#32

/-! ## The host's side -/

/-- A bounded run repeats the single step, and stopping it between two steps and going on later gives the same
run as never having stopped (R109). -/
def Obligations.RunsMayBeSplit : Prop :=
  ∀ (s : State) (m n : Nat),
    s.runUpTo 0 = s
    ∧ (∀ t, s.run = .running → step s = .next t → s.runUpTo (n + 1) = t.runUpTo n)
    ∧ s.runUpTo (m + n) = (s.runUpTo m).runUpTo n

/-- The host reads 32 registers in index order, the first always 0, and the run state
(60_exceptions.md section 9). -/
def Obligations.HostObservesRegistersAndRunState : Prop :=
  ∀ s : State, s.observe.2 = s.run ∧ s.observe.1.length = 32 ∧ s.observe.1[0]? = some 0#32
    ∧ ∀ i, i < 32 → s.observe.1[i]? = some (s.readReg (BitVec.ofNat 5 i))

/-- Run to halt is the repetition of the single step until the engine is Halted: a Halted state is its own end;
a Running one ends where its next state ends; an end is Halted and is the only one; it is what a bounded run
reaches with some limit; and a run need not end, as that of `jal x0, 0` does not (R108, R109, R262). -/
def Obligations.RunToHaltRepeatsTheStep : Prop :=
  ∀ s u : State,
    (∀ reason, s.run = .halted reason → (RunsToHalt s u ↔ u = s))
    ∧ (∀ t, s.run = .running → step s = .next t → (RunsToHalt s u ↔ RunsToHalt t u))
    ∧ (RunsToHalt s u → (∃ reason, u.run = .halted reason) ∧ ∀ v, RunsToHalt s v → v = u)
    ∧ (RunsToHalt s u ↔ ∃ n reason, s.runUpTo n = u ∧ u.run = .halted reason)
    ∧ (s.run = .running → s.pc.toNat % 4 = 0 → s.mem.loadWord s.pc = 0x0000006F#32 → ¬ RunsToHalt s u)
end

