-- ==== Sys2Proof/Laws/Encoding.lean ====
section
/-! SUPPORT. The formats and the immediate fields as sums (30_encoding.md R72 to R77), and what the three
masks of the opcode table keep of a word. A proof about a field of an encoded word turns it into a
number with these and leaves the rest to omega. -/

namespace Sys2Proof

theorem toNat_append_add {m n : Nat} (x : BitVec m) (y : BitVec n) :
    (x ++ y).toNat = x.toNat * 2 ^ n + y.toNat := by
  rw [BitVec.toNat_append, ← Nat.shiftLeft_add_eq_or_of_lt y.isLt, Nat.shiftLeft_eq]

theorem toNat_extract {w : Nat} (x : BitVec w) (start len : Nat) :
    (x.extractLsb' start len).toNat = x.toNat / 2 ^ start % 2 ^ len := by
  rw [BitVec.extractLsb'_toNat, Nat.shiftRight_eq_div_pow]

/-! ## Fields and immediate fields of a word -/

theorem opcodeOf_toNat (w : Word) : (opcodeOf w).toNat = w.toNat % 2 ^ 7 := by
  simp only [opcodeOf, toNat_extract]; omega
theorem rdOf_toNat (w : Word) : (rdOf w).toNat = w.toNat / 2 ^ 7 % 2 ^ 5 := toNat_extract w 7 5
theorem funct3Of_toNat (w : Word) : (funct3Of w).toNat = w.toNat / 2 ^ 12 % 2 ^ 3 := toNat_extract w 12 3
theorem rs1Of_toNat (w : Word) : (rs1Of w).toNat = w.toNat / 2 ^ 15 % 2 ^ 5 := toNat_extract w 15 5
theorem rs2Of_toNat (w : Word) : (rs2Of w).toNat = w.toNat / 2 ^ 20 % 2 ^ 5 := toNat_extract w 20 5
theorem funct7Of_toNat (w : Word) : (funct7Of w).toNat = w.toNat / 2 ^ 25 := by
  simp only [funct7Of, toNat_extract]; omega
theorem restOf_toNat (w : Word) : (restOf w).toNat = w.toNat / 2 ^ 7 := by
  simp only [restOf, toNat_extract]; omega

theorem immFieldI_toNat (w : Word) : (immFieldI w).toNat = w.toNat / 2 ^ 20 := by
  simp only [immFieldI, toNat_extract]; omega

theorem immFieldU_toNat (w : Word) : (immFieldU w).toNat = w.toNat / 2 ^ 12 := by
  simp only [immFieldU, toNat_extract]; omega

theorem immFieldS_toNat (w : Word) :
    (immFieldS w).toNat = w.toNat / 2 ^ 25 * 2 ^ 5 + w.toNat / 2 ^ 7 % 2 ^ 5 := by
  refine (toNat_append_add (w.extractLsb' 25 7) (w.extractLsb' 7 5)).trans ?_
  simp only [toNat_extract]; omega

theorem immFieldB_toNat (w : Word) :
    (immFieldB w).toNat = w.toNat / 2 ^ 31 * 2 ^ 12 + w.toNat / 2 ^ 7 % 2 * 2 ^ 11 +
      w.toNat / 2 ^ 25 % 2 ^ 6 * 2 ^ 5 + w.toNat / 2 ^ 8 % 2 ^ 4 * 2 := by
  refine (toNat_append_add (w.extractLsb' 31 1 ++ w.extractLsb' 7 1 ++ w.extractLsb' 25 6 ++
    w.extractLsb' 8 4) 0#1).trans ?_
  simp only [toNat_append_add, toNat_extract, BitVec.toNat_ofNat]; omega

theorem immFieldJ_toNat (w : Word) :
    (immFieldJ w).toNat = w.toNat / 2 ^ 31 * 2 ^ 20 + w.toNat / 2 ^ 12 % 2 ^ 8 * 2 ^ 12 +
      w.toNat / 2 ^ 20 % 2 * 2 ^ 11 + w.toNat / 2 ^ 21 % 2 ^ 10 * 2 := by
  refine (toNat_append_add (w.extractLsb' 31 1 ++ w.extractLsb' 12 8 ++ w.extractLsb' 20 1 ++
    w.extractLsb' 21 10) 0#1).trans ?_
  simp only [toNat_append_add, toNat_extract, BitVec.toNat_ofNat]; omega

/-! ## Formats -/

theorem encodeR_toNat (f7 : BitVec 7) (rs2 rs1 : RegIdx) (f3 : BitVec 3) (rd : RegIdx)
    (op : BitVec 7) :
    (encodeR f7 rs2 rs1 f3 rd op).toNat = f7.toNat * 2 ^ 25 + rs2.toNat * 2 ^ 20 +
      rs1.toNat * 2 ^ 15 + f3.toNat * 2 ^ 12 + rd.toNat * 2 ^ 7 + op.toNat := by
  refine (toNat_append_add (f7 ++ rs2 ++ rs1 ++ f3 ++ rd) op).trans ?_
  simp only [toNat_append_add]; omega

theorem encodeI_toNat (imm : BitVec 12) (rs1 : RegIdx) (f3 : BitVec 3) (rd : RegIdx)
    (op : BitVec 7) :
    (encodeI imm rs1 f3 rd op).toNat = imm.toNat * 2 ^ 20 + rs1.toNat * 2 ^ 15 +
      f3.toNat * 2 ^ 12 + rd.toNat * 2 ^ 7 + op.toNat := by
  refine (toNat_append_add (imm ++ rs1 ++ f3 ++ rd) op).trans ?_
  simp only [toNat_append_add]; omega

theorem encodeS_toNat (imm : BitVec 12) (rs2 rs1 : RegIdx) (f3 : BitVec 3) (op : BitVec 7) :
    (encodeS imm rs2 rs1 f3 op).toNat = imm.toNat / 2 ^ 5 * 2 ^ 25 + rs2.toNat * 2 ^ 20 +
      rs1.toNat * 2 ^ 15 + f3.toNat * 2 ^ 12 + imm.toNat % 2 ^ 5 * 2 ^ 7 + op.toNat := by
  refine (toNat_append_add (imm.extractLsb' 5 7 ++ rs2 ++ rs1 ++ f3 ++ imm.extractLsb' 0 5) op).trans ?_
  simp only [toNat_append_add, toNat_extract]; omega

theorem encodeB_toNat (off : BitVec 13) (rs2 rs1 : RegIdx) (f3 : BitVec 3) (op : BitVec 7) :
    (encodeB off rs2 rs1 f3 op).toNat = off.toNat / 2 ^ 12 * 2 ^ 31 +
      off.toNat / 2 ^ 5 % 2 ^ 6 * 2 ^ 25 + rs2.toNat * 2 ^ 20 + rs1.toNat * 2 ^ 15 +
      f3.toNat * 2 ^ 12 + off.toNat / 2 % 2 ^ 4 * 2 ^ 8 + off.toNat / 2 ^ 11 % 2 * 2 ^ 7 + op.toNat := by
  refine (toNat_append_add (off.extractLsb' 12 1 ++ off.extractLsb' 5 6 ++ rs2 ++ rs1 ++ f3 ++
    off.extractLsb' 1 4 ++ off.extractLsb' 11 1) op).trans ?_
  simp only [toNat_append_add, toNat_extract]; omega

theorem encodeU_toNat (imm : BitVec 20) (rd : RegIdx) (op : BitVec 7) :
    (encodeU imm rd op).toNat = imm.toNat * 2 ^ 12 + rd.toNat * 2 ^ 7 + op.toNat := by
  refine (toNat_append_add (imm ++ rd) op).trans ?_
  simp only [toNat_append_add]; omega

theorem encodeJ_toNat (off : BitVec 21) (rd : RegIdx) (op : BitVec 7) :
    (encodeJ off rd op).toNat = off.toNat / 2 ^ 20 * 2 ^ 31 + off.toNat / 2 % 2 ^ 10 * 2 ^ 21 +
      off.toNat / 2 ^ 11 % 2 * 2 ^ 20 + off.toNat / 2 ^ 12 % 2 ^ 8 * 2 ^ 12 + rd.toNat * 2 ^ 7 +
      op.toNat := by
  refine (toNat_append_add (off.extractLsb' 20 1 ++ off.extractLsb' 1 10 ++ off.extractLsb' 11 1 ++
    off.extractLsb' 12 8 ++ rd) op).trans ?_
  simp only [toNat_append_add, toNat_extract]; omega

theorem encodeRest_toNat (rest : BitVec 25) (op : BitVec 7) :
    (rest ++ op : Word).toNat = rest.toNat * 2 ^ 7 + op.toNat := toNat_append_add rest op

/-! ## A word put together again from its fields, format by format (R72) -/

/-- The piece of `n` bits at position `k` and what stands above it. -/
theorem div_pow_cut (x k n : Nat) : x / 2 ^ k = x / 2 ^ (k + n) * 2 ^ n + x / 2 ^ k % 2 ^ n := by
  rw [Nat.pow_add, ← Nat.div_div_eq_div_mul, Nat.mul_comm]
  exact (Nat.div_add_mod (x / 2 ^ k) (2 ^ n)).symm

/-- A word is its six fields. -/
theorem encodeR_fields (w : Word) :
    encodeR (funct7Of w) (rs2Of w) (rs1Of w) (funct3Of w) (rdOf w) (opcodeOf w) = w := by
  apply BitVec.eq_of_toNat_eq
  simp only [encodeR_toNat, funct7Of_toNat, rs2Of_toNat, rs1Of_toNat, funct3Of_toNat, rdOf_toNat,
    opcodeOf_toNat]
  omega

theorem encodeI_fields (w : Word) :
    encodeI (immFieldI w) (rs1Of w) (funct3Of w) (rdOf w) (opcodeOf w) = w := by
  apply BitVec.eq_of_toNat_eq
  simp only [encodeI_toNat, immFieldI_toNat, rs1Of_toNat, funct3Of_toNat, rdOf_toNat, opcodeOf_toNat]
  omega

theorem encodeS_fields (w : Word) :
    encodeS (immFieldS w) (rs2Of w) (rs1Of w) (funct3Of w) (opcodeOf w) = w := by
  apply BitVec.eq_of_toNat_eq
  simp only [encodeS_toNat, immFieldS_toNat, rs2Of_toNat, rs1Of_toNat, funct3Of_toNat, opcodeOf_toNat]
  omega

theorem encodeB_fields (w : Word) :
    encodeB (immFieldB w) (rs2Of w) (rs1Of w) (funct3Of w) (opcodeOf w) = w := by
  have pieces : ∀ a b c d n : Nat, a < 2 → b < 2 → c < 2 ^ 6 → d < 2 ^ 4 →
      n = a * 2 ^ 12 + b * 2 ^ 11 + c * 2 ^ 5 + d * 2 →
      n / 2 ^ 12 = a ∧ n / 2 ^ 5 % 2 ^ 6 = c ∧ n / 2 % 2 ^ 4 = d ∧ n / 2 ^ 11 % 2 = b := by omega
  obtain ⟨h12, h5, h1, h11⟩ := pieces _ _ _ _ _ (by omega) (Nat.mod_lt _ (by decide))
    (Nat.mod_lt _ (by decide)) (Nat.mod_lt _ (by decide)) (immFieldB_toNat w)
  apply BitVec.eq_of_toNat_eq
  simp only [encodeB_toNat, h12, h5, h1, h11, rs2Of_toNat, rs1Of_toNat, funct3Of_toNat, opcodeOf_toNat]
  have e0 := div_pow_cut w.toNat 0 7
  have e7 := div_pow_cut w.toNat 7 1
  have e8 := div_pow_cut w.toNat 8 4
  have e12 := div_pow_cut w.toNat 12 3
  have e15 := div_pow_cut w.toNat 15 5
  have e20 := div_pow_cut w.toNat 20 5
  have e25 := div_pow_cut w.toNat 25 6
  simp only [Nat.reduceAdd, Nat.pow_zero, Nat.div_one, Nat.pow_one] at *
  omega

theorem encodeU_fields (w : Word) : encodeU (immFieldU w) (rdOf w) (opcodeOf w) = w := by
  apply BitVec.eq_of_toNat_eq
  simp only [encodeU_toNat, immFieldU_toNat, rdOf_toNat, opcodeOf_toNat]
  omega

theorem encodeJ_fields (w : Word) : encodeJ (immFieldJ w) (rdOf w) (opcodeOf w) = w := by
  have pieces : ∀ a b c d n : Nat, a < 2 → b < 2 ^ 8 → c < 2 → d < 2 ^ 10 →
      n = a * 2 ^ 20 + b * 2 ^ 12 + c * 2 ^ 11 + d * 2 →
      n / 2 ^ 20 = a ∧ n / 2 % 2 ^ 10 = d ∧ n / 2 ^ 11 % 2 = c ∧ n / 2 ^ 12 % 2 ^ 8 = b := by omega
  obtain ⟨h20, h1, h11, h12⟩ := pieces _ _ _ _ _ (by omega) (Nat.mod_lt _ (by decide))
    (Nat.mod_lt _ (by decide)) (Nat.mod_lt _ (by decide)) (immFieldJ_toNat w)
  apply BitVec.eq_of_toNat_eq
  simp only [encodeJ_toNat, h20, h1, h11, h12, rdOf_toNat, opcodeOf_toNat]
  have e0 := div_pow_cut w.toNat 0 7
  have e7 := div_pow_cut w.toNat 7 5
  have e12 := div_pow_cut w.toNat 12 8
  have e20 := div_pow_cut w.toNat 20 1
  have e21 := div_pow_cut w.toNat 21 10
  simp only [Nat.reduceAdd, Nat.pow_zero, Nat.div_one, Nat.pow_one] at *
  omega

theorem encodeRest_fields (w : Word) : (restOf w ++ opcodeOf w : Word) = w := by
  apply BitVec.eq_of_toNat_eq
  simp only [encodeRest_toNat, restOf_toNat, opcodeOf_toNat]
  omega

/-! ## The masks of the opcode table (R91) -/

theorem encodeR_and_mask (f7 : BitVec 7) (rs2 rs1 : RegIdx) (f3 : BitVec 3) (rd : RegIdx)
    (op m7 : BitVec 7) (m3 : BitVec 3) :
    encodeR f7 rs2 rs1 f3 rd op &&& encodeR m7 0 0 m3 0 0x7F = encodeR (f7 &&& m7) 0 0 (f3 &&& m3) 0 op := by
  show ((f7 ++ rs2 ++ rs1 ++ f3 ++ rd ++ op : BitVec (7 + 5 + 5 + 3 + 5 + 7)) &&&
      (m7 ++ 0#5 ++ 0#5 ++ m3 ++ 0#5 ++ 0x7F#7 : BitVec (7 + 5 + 5 + 3 + 5 + 7)))
    = ((f7 &&& m7) ++ 0#5 ++ 0#5 ++ (f3 &&& m3) ++ 0#5 ++ op : BitVec (7 + 5 + 5 + 3 + 5 + 7))
  have hop : op &&& 0x7F#7 = op := by revert op; decide
  simp only [BitVec.and_append, BitVec.and_zero, hop]

/-- The mask 0xFE00707F keeps funct7, funct3 and the opcode. -/
theorem and_maskFunct7 (w : Word) :
    w &&& 0xFE00707F#32 = encodeR (funct7Of w) 0 0 (funct3Of w) 0 (opcodeOf w) := by
  have h7 : ∀ x : BitVec 7, x &&& 0x7F#7 = x := by decide
  have h3 : ∀ x : BitVec 3, x &&& 0x7#3 = x := by decide
  have h := encodeR_and_mask (funct7Of w) (rs2Of w) (rs1Of w) (funct3Of w) (rdOf w) (opcodeOf w) 0x7F 0x7
  have hm : encodeR 0x7F 0 0 0x7 0 0x7F = 0xFE00707F#32 := by decide
  rw [encodeR_fields, hm] at h
  simpa [h7, h3] using h

/-- The mask 0x0000707F keeps funct3 and the opcode. -/
theorem and_maskFunct3 (w : Word) :
    w &&& 0x0000707F#32 = encodeR 0 0 0 (funct3Of w) 0 (opcodeOf w) := by
  have h3 : ∀ x : BitVec 3, x &&& 0x7#3 = x := by decide
  have h := encodeR_and_mask (funct7Of w) (rs2Of w) (rs1Of w) (funct3Of w) (rdOf w) (opcodeOf w) 0 0x7
  have hm : encodeR 0 0 0 0x7 0 0x7F = 0x0000707F#32 := by decide
  rw [encodeR_fields, hm] at h
  simpa [h3] using h

/-- The mask 0x0000007F keeps the opcode. -/
theorem and_maskOpcode (w : Word) : w &&& 0x0000007F#32 = encodeR 0 0 0 0 0 (opcodeOf w) := by
  have h := encodeR_and_mask (funct7Of w) (rs2Of w) (rs1Of w) (funct3Of w) (rdOf w) (opcodeOf w) 0 0
  have hm : encodeR 0 0 0 0 0 0x7F = 0x0000007F#32 := by decide
  rw [encodeR_fields, hm] at h
  simpa using h

end Sys2Proof
end

