-- ==== Sys2Proof/Laws/Memory.lean ====
section
/-! SUPPORT. What memory operations do, byte by byte, and that each keeps the canonical form. -/

namespace Sys2Proof.Machine

/-! ## The capacity (00_scope.md R7) -/

theorem Memory.cap_pos (m : Memory) : 0 < m.cap := Nat.two_pow_pos _

theorem Memory.four_dvd_cap (m : Memory) : 4 ∣ m.cap := by
  unfold Memory.cap; exact ⟨2 ^ m.capExp.val, by rw [Nat.pow_add]; omega⟩

theorem Memory.four_le_cap (m : Memory) : 4 ≤ m.cap := Nat.le_of_dvd m.cap_pos m.four_dvd_cap

theorem Memory.cap_dvd (m : Memory) : m.cap ∣ 2 ^ 32 := by
  unfold Memory.cap; exact Nat.pow_dvd_pow 2 (by omega)

theorem Memory.cap_le (m : Memory) : m.cap ≤ 2 ^ 32 := Nat.le_of_dvd (by decide) m.cap_dvd

theorem Memory.index_lt (m : Memory) (a : Word) (i : Nat) : m.index a i < m.cap :=
  Nat.mod_lt _ m.cap_pos

/-- The bytes of one access are distinct: CAP is at least 4 (20_memory.md R43). -/
theorem Memory.index_inj (m : Memory) (a : Word) {i j : Nat} (hi : i < 4) (hj : j < 4)
    (h : m.index a i = m.index a j) : i = j := by
  have h4 := m.four_le_cap
  have hmod : i % m.cap = j % m.cap :=
    Nat.ModEq.add_left_cancel' a.toNat (show a.toNat + i ≡ a.toNat + j [MOD m.cap] from h)
  rwa [Nat.mod_eq_of_lt (by omega), Nat.mod_eq_of_lt (by omega)] at hmod

/-! ## The list of bytes -/

theorem cellGet_erase (l : List Host.Cell) (a k : Nat) :
    cellGet (cellErase l a) k = if k = a then 0#8 else cellGet l k := by
  induction l with
  | nil => simp [cellErase, cellGet]
  | cons c t ih =>
    obtain ⟨b, w⟩ := c
    by_cases hab : a = b
    · subst hab
      by_cases hk : k = a
      · subst hk; simpa [cellErase, cellGet] using ih
      · simp [cellErase, cellGet, ih, hk]
    · by_cases hk : k = b
      · subst hk; simp [cellErase, cellGet, hab, Ne.symm hab]
      · simp [cellErase, cellGet, hab, hk, ih]

theorem mem_cellErase {l : List Host.Cell} {a : Nat} {c : Host.Cell} (h : c ∈ cellErase l a) :
    c ∈ l ∧ c.1 ≠ a := by
  induction l with
  | nil => simp [cellErase] at h
  | cons d t ih =>
    obtain ⟨b, w⟩ := d
    by_cases hab : a = b
    · simp only [cellErase, hab, if_true] at h
      have := ih (hab ▸ h)
      exact ⟨List.mem_cons_of_mem _ this.1, this.2⟩
    · simp only [cellErase, hab, if_false, List.mem_cons] at h
      rcases h with rfl | h
      · exact ⟨List.mem_cons_self, Ne.symm hab⟩
      · exact ⟨List.mem_cons_of_mem _ (ih h).1, (ih h).2⟩

theorem cellGet_insert_ne (l : List Host.Cell) {a k : Nat} (v : Byte) (hk : k ≠ a) :
    cellGet (cellInsert l a v) k = cellGet l k := by
  induction l with
  | nil => simp [cellInsert, cellGet, hk]
  | cons c t ih =>
    obtain ⟨b, w⟩ := c
    by_cases hab : a < b
    · simp [cellInsert, hab, cellGet, hk]
    · simp [cellInsert, hab, cellGet, ih]

theorem cellGet_insert_self (l : List Host.Cell) (a : Nat) (v : Byte) (hl : ∀ c ∈ l, c.1 ≠ a) :
    cellGet (cellInsert l a v) a = v := by
  induction l with
  | nil => simp [cellInsert, cellGet]
  | cons c t ih =>
    obtain ⟨b, w⟩ := c
    have hb : a ≠ b := Ne.symm (hl _ List.mem_cons_self)
    by_cases hab : a < b
    · simp [cellInsert, hab, cellGet]
    · simp [cellInsert, hab, cellGet, hb, ih (fun c hc => hl c (List.mem_cons_of_mem _ hc))]

theorem cellGet_set (l : List Host.Cell) (a k : Nat) (v : Byte) :
    cellGet (cellSet l a v) k = if k = a then v else cellGet l k := by
  by_cases hv : v = 0#8
  · simp [cellSet, hv, cellGet_erase]
  · by_cases hk : k = a
    · subst hk
      simp [cellSet, hv, cellGet_insert_self _ _ _ (fun c hc => (mem_cellErase hc).2)]
    · simp [cellSet, hv, hk, cellGet_insert_ne _ _ hk, cellGet_erase]

theorem mem_cellInsert {l : List Host.Cell} {a : Nat} {v : Byte} {c : Host.Cell}
    (h : c ∈ cellInsert l a v) : c = (a, v) ∨ c ∈ l := by
  induction l with
  | nil => simpa [cellInsert] using h
  | cons d t ih =>
    obtain ⟨b, w⟩ := d
    by_cases hab : a < b
    · simpa [cellInsert, hab] using h
    · simp only [cellInsert, hab, if_false, List.mem_cons] at h
      rcases h with h | h
      · exact .inr (h ▸ List.mem_cons_self)
      · exact (ih h).imp_right (List.mem_cons_of_mem _)

theorem rising_cellErase {l : List Host.Cell} (a : Nat) (h : l.Pairwise (fun c d => c.1 < d.1)) :
    (cellErase l a).Pairwise (fun c d => c.1 < d.1) := by
  induction l with
  | nil => exact h
  | cons c t ih =>
    obtain ⟨b, w⟩ := c
    rw [List.pairwise_cons] at h
    by_cases hab : a = b
    · simpa [cellErase, hab] using hab ▸ ih h.2
    · simp only [cellErase, hab, if_false, List.pairwise_cons]
      exact ⟨fun d hd => h.1 d (mem_cellErase hd).1, ih h.2⟩

theorem rising_cellInsert {l : List Host.Cell} (a : Nat) (v : Byte) (hl : ∀ c ∈ l, c.1 ≠ a)
    (h : l.Pairwise (fun c d => c.1 < d.1)) :
    (cellInsert l a v).Pairwise (fun c d => c.1 < d.1) := by
  induction l with
  | nil => simp [cellInsert]
  | cons c t ih =>
    obtain ⟨b, w⟩ := c
    have hb : b ≠ a := hl _ List.mem_cons_self
    have h' := List.pairwise_cons.1 h
    by_cases hab : a < b
    · simp only [cellInsert, hab, if_true]
      refine List.pairwise_cons.2 ⟨fun d hd => ?_, h⟩
      rcases List.mem_cons.1 hd with rfl | hd
      · exact hab
      · exact Nat.lt_trans hab (h'.1 d hd)
    · simp only [cellInsert, hab, if_false]
      refine List.pairwise_cons.2 ⟨fun d hd => ?_, ih (fun c hc => hl c (List.mem_cons_of_mem _ hc)) h'.2⟩
      rcases mem_cellInsert hd with rfl | hd
      · show b < a; omega
      · exact h'.1 d hd

/-! ## One byte -/

@[simp] theorem Memory.set_cap (m : Memory) (k : Nat) (v : Byte) : (m.set k v).cap = m.cap := rfl

@[simp] theorem Memory.set_index (m : Memory) (k : Nat) (v : Byte) (a : Word) (i : Nat) :
    (m.set k v).index a i = m.index a i := rfl

theorem Memory.get_set (m : Memory) (j k : Nat) (v : Byte) :
    (m.set j v).get k = if k = j then v else m.get k := cellGet_set m.cells j k v

theorem Memory.wf_set {m : Memory} (hm : m.wf) {k : Nat} (hk : k < m.cap) (v : Byte) :
    (m.set k v).wf := by
  have herase := rising_cellErase k hm.1
  by_cases hv : v = 0#8
  · refine ⟨by simpa [Memory.set, cellSet, hv] using herase, fun c hc => ?_⟩
    have hc' : c ∈ cellErase m.cells k := by simpa [Memory.set, cellSet, hv] using hc
    exact hm.2 c (mem_cellErase hc').1
  · refine ⟨by simpa [Memory.set, cellSet, hv] using
      rising_cellInsert k v (fun c hc => (mem_cellErase hc).2) herase, fun c hc => ?_⟩
    have hc' : c ∈ cellInsert (cellErase m.cells k) k v := by simpa [Memory.set, cellSet, hv] using hc
    rcases mem_cellInsert hc' with rfl | hc'
    · exact ⟨hk, hv⟩
    · exact hm.2 c (mem_cellErase hc').1

/-! ## Stores -/

@[simp] theorem Memory.store_cap (m : Memory) (a v : Word) (n : Nat) : (m.store a v n).cap = m.cap := by
  induction n with
  | zero => rfl
  | succ n ih => simp [Memory.store, ih]

@[simp] theorem Memory.store_index (m : Memory) (a v : Word) (n : Nat) (b : Word) (i : Nat) :
    (m.store a v n).index b i = m.index b i := by simp [Memory.index]

/-- Everything a store does: byte `i` of the access becomes byte `i` of the word, every other byte is
unchanged (20_memory.md R43). -/
theorem Memory.get_store_at (m : Memory) (a v : Word) {n i : Nat} (hn : n ≤ 4) (hi : i < n) :
    (m.store a v n).get (m.index a i) = byteOf v i := by
  induction n with
  | zero => omega
  | succ n ih =>
    rw [Memory.store, Memory.get_set]
    by_cases h : i = n
    · simp [h]
    · have hne : m.index a i ≠ m.index a n := fun e => h (m.index_inj a (by omega) (by omega) e)
      simp [hne, ih (by omega) (by omega)]

theorem Memory.get_store_other (m : Memory) (a v : Word) {n k : Nat}
    (hk : ∀ i, i < n → k ≠ m.index a i) : (m.store a v n).get k = m.get k := by
  induction n with
  | zero => rfl
  | succ n ih =>
    rw [Memory.store, Memory.get_set]
    simp [hk n (by omega), ih (fun i hi => hk i (by omega))]

theorem Memory.wf_store {m : Memory} (hm : m.wf) (a v : Word) (n : Nat) : (m.store a v n).wf := by
  induction n with
  | zero => exact hm
  | succ n ih => exact Memory.wf_set ih (by simpa using m.index_lt a n) _

/-! ## Images and reset -/

theorem mem_imageCells {image : List Byte} {k : Nat} {c : Host.Cell} (h : c ∈ imageCells k image) :
    k ≤ c.1 ∧ c.1 < k + image.length ∧ c.2 ≠ 0#8 := by
  induction image generalizing k with
  | nil => simp [imageCells] at h
  | cons b t ih =>
    by_cases hb : b = 0#8
    · have := ih (by simpa [imageCells, hb] using h)
      exact ⟨by omega, by simp only [List.length_cons]; omega, this.2.2⟩
    · simp only [imageCells, hb, if_false, List.mem_cons] at h
      rcases h with rfl | h
      · exact ⟨le_refl _, by simp, hb⟩
      · have := ih h
        exact ⟨by omega, by simp only [List.length_cons]; omega, this.2.2⟩

theorem rising_imageCells (k : Nat) (image : List Byte) :
    (imageCells k image).Pairwise (fun c d => c.1 < d.1) := by
  induction image generalizing k with
  | nil => simp [imageCells]
  | cons b t ih =>
    by_cases hb : b = 0#8
    · simpa [imageCells, hb] using ih (k + 1)
    · simp only [imageCells, hb, if_false, List.pairwise_cons]
      exact ⟨fun d hd => (mem_imageCells hd).1, ih (k + 1)⟩

theorem cellGet_imageCells (image : List Byte) (j k : Nat) :
    cellGet (imageCells j image) k = if j ≤ k then image.getD (k - j) 0#8 else 0#8 := by
  induction image generalizing j with
  | nil => simp [imageCells, cellGet]
  | cons b t ih =>
    rcases Nat.lt_trichotomy k j with h | h | h
    · have h1 : ¬ j + 1 ≤ k := by omega
      have h2 : ¬ j ≤ k := by omega
      have h3 : k ≠ j := by omega
      by_cases hb : b = 0#8 <;> simp [imageCells, hb, cellGet, ih, h1, h2, h3]
    · subst h
      by_cases hb : b = 0#8
      · simp [imageCells, hb, ih]
      · simp [imageCells, hb, cellGet]
    · obtain ⟨d, rfl⟩ : ∃ d, k = j + 1 + d := ⟨k - (j + 1), by omega⟩
      have h1 : j + 1 + d - j = d + 1 := by omega
      have h2 : j + 1 + d ≠ j := by omega
      have h3 : j ≤ j + 1 + d := by omega
      by_cases hb : b = 0#8 <;> simp [imageCells, hb, cellGet, ih, h1, h2, h3]

theorem State.reset_wf : State.reset.mem.wf := by decide

theorem boot_wf {c : Fin 31} {image : List Byte} {s : State} (h : boot c image = .next s) :
    s.mem.wf := by
  unfold boot at h
  split at h
  · cases h
    refine ⟨rising_imageCells 0 image, fun d hd => ?_⟩
    have hm := mem_imageCells hd
    exact ⟨by simp only [Memory.cap]; omega, hm.2.2⟩
  · cases h

end Sys2Proof.Machine
end

