-- ==== Sys2Proof/Laws/State.lean ====
section
/-! SUPPORT. One lemma per component of the state per update, and how registers read after each update. -/

namespace Sys2Proof.Machine

/-! ## Writing a register -/

@[simp] theorem State.writeReg_pc (s : State) (r : RegIdx) (v : Word) :
    (s.writeReg r v).pc = s.pc := by
  unfold State.writeReg; split <;> rfl

@[simp] theorem State.writeReg_run (s : State) (r : RegIdx) (v : Word) :
    (s.writeReg r v).run = s.run := by
  unfold State.writeReg; split <;> rfl

@[simp] theorem State.writeReg_mem (s : State) (r : RegIdx) (v : Word) :
    (s.writeReg r v).mem = s.mem := by
  unfold State.writeReg; split <;> rfl

/-- Everything a register write does to what registers read (10_state.md R21). -/
theorem State.readReg_writeReg (s : State) (r q : RegIdx) (v : Word) :
    (s.writeReg r v).readReg q = if q = r ∧ q ≠ 0#5 then v else s.readReg q := by
  by_cases hq : q = 0#5
  · subst hq; simp [State.readReg]
  by_cases hr : r = 0#5
  · subst hr; simp [State.writeReg, hq]
  have hq1 : 0 < q.toNat := by
    rcases Nat.eq_zero_or_pos q.toNat with h | h
    · exact absurd (BitVec.eq_of_toNat_eq (by simpa using h)) hq
    · exact h
  have hr1 : 0 < r.toNat := by
    rcases Nat.eq_zero_or_pos r.toNat with h | h
    · exact absurd (BitVec.eq_of_toNat_eq (by simpa using h)) hr
    · exact h
  have hidx : (r.toNat - 1 = q.toNat - 1) ↔ q = r := by
    constructor
    · intro h; exact BitVec.eq_of_toNat_eq (by omega)
    · intro h; rw [h]
  simp [State.readReg, State.writeReg, hr, hq, Vector.getElem_set, hidx]

/-! ## The updates that end an instruction -/

@[simp] theorem State.readReg_pc_update (s : State) (p : Word) (r : RegIdx) :
    ({ s with pc := p } : State).readReg r = s.readReg r := rfl

@[simp] theorem State.readReg_run_update (s : State) (u : RunState) (r : RegIdx) :
    ({ s with run := u } : State).readReg r = s.readReg r := rfl

@[simp] theorem State.readReg_mem_update (s : State) (m : Memory) (r : RegIdx) :
    ({ s with mem := m } : State).readReg r = s.readReg r := rfl

@[simp] theorem State.advance_pc (s : State) : s.advance.pc = s.npc := rfl
@[simp] theorem State.advance_run (s : State) : s.advance.run = s.run := rfl
@[simp] theorem State.advance_mem (s : State) : s.advance.mem = s.mem := rfl
@[simp] theorem State.advance_readReg (s : State) (r : RegIdx) :
    s.advance.readReg r = s.readReg r := rfl

@[simp] theorem State.writeBack_pc (s : State) (rd : RegIdx) (v : Word) :
    (s.writeBack rd v).pc = s.npc := rfl
@[simp] theorem State.writeBack_run (s : State) (rd : RegIdx) (v : Word) :
    (s.writeBack rd v).run = s.run := by simp [State.writeBack]
@[simp] theorem State.writeBack_mem (s : State) (rd : RegIdx) (v : Word) :
    (s.writeBack rd v).mem = s.mem := by simp [State.writeBack]
theorem State.writeBack_readReg (s : State) (rd q : RegIdx) (v : Word) :
    (s.writeBack rd v).readReg q = if q = rd ∧ q ≠ 0#5 then v else s.readReg q :=
  s.readReg_writeReg rd q v

@[simp] theorem State.storeAdvance_pc (s : State) (ea v : Word) (n : Nat) :
    (s.storeAdvance ea v n).pc = s.npc := rfl
@[simp] theorem State.storeAdvance_run (s : State) (ea v : Word) (n : Nat) :
    (s.storeAdvance ea v n).run = s.run := rfl
@[simp] theorem State.storeAdvance_mem (s : State) (ea v : Word) (n : Nat) :
    (s.storeAdvance ea v n).mem = s.mem.store ea v n := rfl
@[simp] theorem State.storeAdvance_readReg (s : State) (ea v : Word) (n : Nat) (r : RegIdx) :
    (s.storeAdvance ea v n).readReg r = s.readReg r := rfl

@[simp] theorem State.branchTo_pc (s : State) (b : Bool) (t : Word) :
    (s.branchTo b t).pc = if b then t else s.npc := rfl
@[simp] theorem State.branchTo_run (s : State) (b : Bool) (t : Word) :
    (s.branchTo b t).run = s.run := rfl
@[simp] theorem State.branchTo_mem (s : State) (b : Bool) (t : Word) :
    (s.branchTo b t).mem = s.mem := rfl
@[simp] theorem State.branchTo_readReg (s : State) (b : Bool) (t : Word) (r : RegIdx) :
    (s.branchTo b t).readReg r = s.readReg r := rfl

@[simp] theorem State.linkTo_pc (s : State) (rd : RegIdx) (t : Word) :
    (s.linkTo rd t).pc = t := rfl
@[simp] theorem State.linkTo_run (s : State) (rd : RegIdx) (t : Word) :
    (s.linkTo rd t).run = s.run := by simp [State.linkTo]
@[simp] theorem State.linkTo_mem (s : State) (rd : RegIdx) (t : Word) :
    (s.linkTo rd t).mem = s.mem := by simp [State.linkTo]
theorem State.linkTo_readReg (s : State) (rd q : RegIdx) (t : Word) :
    (s.linkTo rd t).readReg q = if q = rd ∧ q ≠ 0#5 then s.linkValue else s.readReg q :=
  s.readReg_writeReg rd q s.linkValue

@[simp] theorem State.raise_pc (s : State) (r : HaltReason) : (s.raise r).pc = s.pc := rfl
@[simp] theorem State.raise_run (s : State) (r : HaltReason) : (s.raise r).run = .halted r := rfl
@[simp] theorem State.raise_mem (s : State) (r : HaltReason) : (s.raise r).mem = s.mem := rfl
@[simp] theorem State.raise_readReg (s : State) (r : HaltReason) (q : RegIdx) :
    (s.raise r).readReg q = s.readReg q := rfl

end Sys2Proof.Machine
end

