-- ==== Sys2Proof/Laws/Exec.lean ====
section
/-! SUPPORT. What executing an instruction and taking a step can do, said once: every later proof about
all instructions takes one of these cases instead of unfolding the meanings. -/

namespace Sys2Proof.Machine

theorem execSystem_eq (payload : BitVec 25) (s : State) :
    execSystem payload s = .next (s.raise (.systemCall (systemWord payload))) := rfl

/-- Everything `exec` can do, by the way the instruction ends. -/
theorem exec_cases (i : Instr) (s : State) :
    (∃ rd v, i.dest = some rd ∧ i.isTransfer = false ∧ i.isStore = false ∧ i.isSystem = false ∧
      exec i s = .next (s.writeBack rd v)) ∨
    (∃ ea v n, n ≤ 4 ∧ i.dest = none ∧ i.isTransfer = false ∧ i.isStore = true ∧ i.isSystem = false ∧
      exec i s = .next (s.storeAdvance ea v n)) ∨
    (∃ taken off, i.dest = none ∧ i.isTransfer = true ∧ i.isStore = false ∧ i.isSystem = false ∧
      (i.wellFormed = true → evenOffset off = true) ∧
      exec i s = .next (s.branchTo taken (s.branchTarget off))) ∨
    (∃ rd off, i = .jal rd off ∧ exec i s = .next (s.linkTo rd (s.jalTarget off))) ∨
    (∃ rd rs1 imm ignored, i = .jalr rd rs1 imm ignored ∧
      exec i s = .next (s.linkTo rd (s.jalrTarget rs1 imm))) ∨
    (∃ ignored, i = .fence ignored ∧ exec i s = .next s.advance) ∨
    (∃ payload, i = .system payload ∧
      exec i s = .next (s.raise (.systemCall (systemWord payload)))) := by
  cases i
  case sb | sh | sw =>
    exact .inr (.inl ⟨_, _, _, by decide, rfl, rfl, rfl, rfl, rfl⟩)
  case beq | bne | blt | bge | bltu | bgeu =>
    exact .inr (.inr (.inl ⟨_, _, rfl, rfl, rfl, rfl, id, rfl⟩))
  case jal => exact .inr (.inr (.inr (.inl ⟨_, _, rfl, rfl⟩)))
  case jalr => exact .inr (.inr (.inr (.inr (.inl ⟨_, _, _, _, rfl, rfl⟩))))
  case fence => exact .inr (.inr (.inr (.inr (.inr (.inl ⟨_, rfl, rfl⟩)))))
  case system => exact .inr (.inr (.inr (.inr (.inr (.inr ⟨_, rfl, rfl⟩)))))
  all_goals exact .inl ⟨_, _, rfl, rfl, rfl, rfl, rfl⟩

/-- Every instruction answers a next state (40_engine_cycle.md R112: no stall, no wait, no refusal). -/
theorem exec_next (i : Instr) (s : State) : ∃ t, exec i s = .next t := by
  rcases exec_cases i s with ⟨_, _, _, _, _, _, h⟩ | ⟨_, _, _, _, _, _, _, _, h⟩ | ⟨_, _, _, _, _, _, _, h⟩ |
    ⟨_, _, _, h⟩ | ⟨_, _, _, _, _, h⟩ | ⟨_, _, h⟩ | ⟨_, _, h⟩ <;> exact ⟨_, h⟩

/-- What `exec` does to memory, with the bytes named: it stores `n` bytes at `ea`, these being
`State.storedBytes`, and for an instruction that stores nothing leaves memory as it was. -/
theorem exec_mem {i : Instr} {s t : State} (h : exec i s = .next t) :
    ∃ ea v n, n ≤ 4 ∧ s.storedBytes i = (List.range n).map (s.mem.index ea) ∧ t.mem = s.mem.store ea v n := by
  cases i
  case sb | sh | sw =>
    injection h with h
    subst h
    exact ⟨_, _, _, by decide, rfl, rfl⟩
  case system =>
    injection h with h
    subst h
    exact ⟨0, 0, 0, by decide, rfl, rfl⟩
  all_goals
    injection h with h
    subst h
    exact ⟨0, 0, 0, by decide, rfl, by simp [Memory.store]⟩

/-- Everything the fetch and dispatch of a step can answer (40_engine_cycle.md R101 to R105). -/
theorem fetchInstr_cases (s : State) :
    (s.pc.toNat % 4 ≠ 0 ∧ s.fetchInstr = .error (.alignmentFault s.pc)) ∨
    (s.pc.toNat % 4 = 0 ∧ (∃ e, decode s.fetch = .error e) ∧
      s.fetchInstr = .error (decodeErrorOf s.fetch)) ∨
    (s.pc.toNat % 4 = 0 ∧ ∃ i, decode s.fetch = .ok i ∧ s.fetchInstr = .ok i) := by
  by_cases ha : s.pc.toNat % 4 = 0
  · have ha' : s.aligned = true := by simp [State.aligned, ha]
    cases hd : decode s.fetch with
    | error e => exact .inr (.inl ⟨ha, ⟨e, rfl⟩, by simp [State.fetchInstr, ha', hd]⟩)
    | ok i => exact .inr (.inr ⟨ha, i, rfl, by simp [State.fetchInstr, ha', hd]⟩)
  · exact .inl ⟨ha, by simp [State.fetchInstr, State.aligned, ha]⟩

/-- Everything `step` can do when it answers a next state. -/
theorem step_cases {s t : State} (h : step s = .next t) :
    s.run = .running ∧
    ((s.pc.toNat % 4 ≠ 0 ∧ t = s.raise (.alignmentFault s.pc)) ∨
     (s.pc.toNat % 4 = 0 ∧ (∃ e, decode s.fetch = .error e) ∧ t = s.raise (decodeErrorOf s.fetch)) ∨
     (s.pc.toNat % 4 = 0 ∧ ∃ i, decode s.fetch = .ok i ∧ exec i s = .next t)) := by
  unfold step at h
  split at h
  · cases h
  · rename_i hrun
    refine ⟨hrun, ?_⟩
    rcases fetchInstr_cases s with ⟨ha, hf⟩ | ⟨ha, he, hf⟩ | ⟨ha, i, hd, hf⟩
    · rw [hf] at h
      exact .inl ⟨ha, by injection h with h; exact h.symm⟩
    · rw [hf] at h
      exact .inr (.inl ⟨ha, he, by injection h with h; exact h.symm⟩)
    · rw [hf] at h
      exact .inr (.inr ⟨ha, i, hd, h⟩)

/-- A halt leaves the word at the program counter as it is. -/
theorem State.fetch_raise (s : State) (r : HaltReason) : (s.raise r).fetch = s.fetch := rfl

/-! ## The program counter as a number -/

theorem State.npc_toNat (s : State) : s.npc.toNat = (s.pc.toNat + 4) % s.mem.cap := by
  have h1 := Nat.mod_lt (s.pc.toNat + 4) s.mem.cap_pos
  have h2 := s.mem.cap_le
  simp only [State.npc, BitVec.toNat_ofNat]
  exact Nat.mod_eq_of_lt (by omega)

end Sys2Proof.Machine
end

