-- ==== Sys2Proof/Laws/Operands.lean ====
section
/-! SUPPORT. The operand forms, the comparisons and the byte of a word as numbers. A proof about a result
turns each operand form into a number with these and leaves the rest to omega. -/

namespace Sys2Proof

/-! ## Immediates (30_encoding.md R73 to R77) -/

theorem immI_toInt (f : BitVec 12) : (immI f).toInt = f.toInt := BitVec.toInt_signExtend_of_le (by decide)
theorem immS_toInt (f : BitVec 12) : (immS f).toInt = f.toInt := BitVec.toInt_signExtend_of_le (by decide)
theorem immB_toInt (f : BitVec 13) : (immB f).toInt = f.toInt := BitVec.toInt_signExtend_of_le (by decide)
theorem immJ_toInt (f : BitVec 21) : (immJ f).toInt = f.toInt := BitVec.toInt_signExtend_of_le (by decide)

theorem immU_toNat (f : BitVec 20) : (immU f).toNat = f.toNat * 2 ^ 12 :=
  (toNat_append_add f 0#12).trans (Nat.add_zero _)

theorem evenOffset_iff {w : Nat} (off : BitVec w) : evenOffset off = true ↔ off.toNat % 2 = 0 := by
  simp [evenOffset, BitVec.getLsbD, Nat.testBit_zero]

/-- A sum of words, one of them read as signed: base plus displacement (00_scope.md R10). -/
theorem toNat_add_signed (a b : Word) : ((a + b).toNat : Int) = (a.toNat + b.toInt) % 2 ^ 32 := by
  rw [BitVec.toNat_add, BitVec.toInt_eq_toNat_cond]
  split <;> omega

namespace Machine

/-! ## Shift amounts, booleans, bytes -/

theorem shiftAmount_toNat (v : Word) : (shiftAmount v).toNat = v.toNat % 32 := by simp [shiftAmount]

theorem boolWord_toNat (b : Bool) : (boolWord b).toNat = if b then 1 else 0 := by cases b <;> rfl

theorem lessS_iff (a b : Word) : lessS a b = true ↔ a.toInt < b.toInt := by simp [lessS, BitVec.slt]

theorem lessU_iff (a b : Word) : lessU a b = true ↔ a.toNat < b.toNat := by simp [lessU, BitVec.ult]

theorem byteOf_toNat (v : Word) (i : Nat) : (byteOf v i).toNat = v.toNat / 2 ^ (8 * i) % 2 ^ 8 :=
  toNat_extract v (8 * i) 8

theorem sext_toInt {w : Nat} (v : BitVec w) (h : w ≤ 32) : (sext v).toInt = v.toInt :=
  BitVec.toInt_signExtend_of_le h

theorem zext_toNat {w : Nat} (v : BitVec w) (h : w ≤ 32) : (zext v).toNat = v.toNat := by
  have := Nat.pow_le_pow_right (n := 2) (by decide) h
  rw [zext, BitVec.toNat_setWidth, Nat.mod_eq_of_lt (by omega)]

/-- A branch or JAL target that comes from an even address by an even offset is even. -/
theorem even_add (a b : Word) (ha : a.toNat % 2 = 0) (hb : b.toNat % 2 = 0) : (a + b).toNat % 2 = 0 := by
  rw [BitVec.toNat_add]; omega

/-- Clearing bit 0 (46_jump.md R191). -/
theorem clearBit0_toNat (a : Word) : (a &&& 0xFFFFFFFE#32).toNat = a.toNat / 2 * 2 := by
  have e : a = (a.extractLsb' 1 31 ++ a.extractLsb' 0 1 : BitVec (31 + 1)) := by
    apply BitVec.eq_of_toNat_eq
    rw [toNat_append_add, toNat_extract, toNat_extract]; omega
  have h : a &&& 0xFFFFFFFE#32 = (a.extractLsb' 1 31 ++ 0#1 : BitVec (31 + 1)) := by
    conv => lhs; rw [e]
    show (a.extractLsb' 1 31 ++ a.extractLsb' 0 1 : BitVec (31 + 1)) &&&
      (BitVec.allOnes 31 ++ 0#1 : BitVec (31 + 1)) = _
    rw [BitVec.and_append, BitVec.and_allOnes]; simp
  rw [h, toNat_append_add, toNat_extract, show (0#1).toNat = 0 from rfl]; omega

/-! ## The bytes two accesses name (20_memory.md R41) -/

/-- Addresses with one residue name the same bytes. -/
theorem Memory.index_congr {m : Memory} {a b : Word} (h : b.toNat % m.cap = a.toNat % m.cap) (i : Nat) :
    m.index b i = m.index a i :=
  Nat.ModEq.add_right i h

/-- Byte `i` of an access of the stored width, at the stored address or an alias of it. -/
theorem Memory.byteAt_store (m : Memory) {a b : Word} (v : Word) {n i : Nat} (hn : n ≤ 4) (hi : i < n)
    (h : b.toNat % m.cap = a.toNat % m.cap) : (m.store a v n).byteAt b i = byteOf v i := by
  rw [Memory.byteAt, Memory.store_index, Memory.index_congr h, Memory.get_store_at m a v hn hi]

end Machine

end Sys2Proof
end

