-- ==== Sys2Proof/Laws/PerInstr.lean ====
section
/-! SUPPORT. The family of per-instruction lemmas: the word of every instruction selects the row of the opcode
table that its own rule gives (30_encoding.md R91). -/

namespace Sys2Proof.Laws.SelectsRow

/-- The encoded word selects the instruction's row. -/
def Statement (i : Instr) : Prop := i.row.selects (encode i)

/-! One lemma per format and mask. -/

theorem of_encodeR (f7 : BitVec 7) (rs2 rs1 : RegIdx) (f3 : BitVec 3) (rd : RegIdx) (op : BitVec 7) :
    encodeR f7 rs2 rs1 f3 rd op &&& 0xFE00707F#32 = encodeR f7 0 0 f3 0 op := by
  apply BitVec.eq_of_toNat_eq
  simp only [and_maskFunct7, encodeR_toNat, funct7Of_toNat, funct3Of_toNat, opcodeOf_toNat]
  omega

theorem of_encodeI (imm : BitVec 12) (rs1 : RegIdx) (f3 : BitVec 3) (rd : RegIdx) (op : BitVec 7) :
    encodeI imm rs1 f3 rd op &&& 0x0000707F#32 = encodeR 0 0 0 f3 0 op := by
  apply BitVec.eq_of_toNat_eq
  simp only [and_maskFunct3, encodeR_toNat, encodeI_toNat, funct3Of_toNat, opcodeOf_toNat]
  omega

theorem of_encodeS (imm : BitVec 12) (rs2 rs1 : RegIdx) (f3 : BitVec 3) (op : BitVec 7) :
    encodeS imm rs2 rs1 f3 op &&& 0x0000707F#32 = encodeR 0 0 0 f3 0 op := by
  apply BitVec.eq_of_toNat_eq
  simp only [and_maskFunct3, encodeR_toNat, encodeS_toNat, funct3Of_toNat, opcodeOf_toNat]
  omega

theorem of_encodeB (off : BitVec 13) (rs2 rs1 : RegIdx) (f3 : BitVec 3) (op : BitVec 7) :
    encodeB off rs2 rs1 f3 op &&& 0x0000707F#32 = encodeR 0 0 0 f3 0 op := by
  apply BitVec.eq_of_toNat_eq
  simp only [and_maskFunct3, encodeR_toNat, encodeB_toNat, funct3Of_toNat, opcodeOf_toNat]
  have h1 : off.toNat / 2 ^ 12 < 2 := by omega
  have h2 : off.toNat / 2 ^ 5 % 2 ^ 6 < 2 ^ 6 := Nat.mod_lt _ (by decide)
  have h3 : off.toNat / 2 % 2 ^ 4 < 2 ^ 4 := Nat.mod_lt _ (by decide)
  have h4 : off.toNat / 2 ^ 11 % 2 < 2 := Nat.mod_lt _ (by decide)
  generalize off.toNat / 2 ^ 12 = a at h1
  generalize off.toNat / 2 ^ 5 % 2 ^ 6 = b at h2
  generalize off.toNat / 2 % 2 ^ 4 = c at h3
  generalize off.toNat / 2 ^ 11 % 2 = d at h4
  omega

/-- A word with a known opcode selects the row of that opcode. -/
theorem of_opcode (w : Word) (op : BitVec 7) (h : w.toNat % 2 ^ 7 = op.toNat) :
    w &&& 0x0000007F#32 = encodeR 0 0 0 0 0 op := by
  have : opcodeOf w = op := BitVec.eq_of_toNat_eq (by rw [opcodeOf_toNat, h])
  rw [and_maskOpcode, this]

theorem of_encodeI_opcode (imm : BitVec 12) (rs1 : RegIdx) (f3 : BitVec 3) (rd : RegIdx)
    (op : BitVec 7) : encodeI imm rs1 f3 rd op &&& 0x0000007F#32 = encodeR 0 0 0 0 0 op :=
  of_opcode _ _ (by rw [encodeI_toNat]; omega)

theorem of_encodeU (imm : BitVec 20) (rd : RegIdx) (op : BitVec 7) :
    encodeU imm rd op &&& 0x0000007F#32 = encodeR 0 0 0 0 0 op :=
  of_opcode _ _ (by rw [encodeU_toNat]; omega)

theorem of_encodeJ (off : BitVec 21) (rd : RegIdx) (op : BitVec 7) :
    encodeJ off rd op &&& 0x0000007F#32 = encodeR 0 0 0 0 0 op :=
  of_opcode _ _ (by rw [encodeJ_toNat]; omega)

theorem of_encodeRest (rest : BitVec 25) (op : BitVec 7) :
    (rest ++ op : Word) &&& 0x0000007F#32 = encodeR 0 0 0 0 0 op :=
  of_opcode _ _ (by rw [encodeRest_toNat]; omega)

/-! One lemma per instruction. -/

theorem add (rd rs1 rs2 : RegIdx) : Statement (.add rd rs1 rs2) :=
  (of_encodeR 0b0000000 rs2 rs1 0b000 rd 0x33).trans rfl

theorem sub (rd rs1 rs2 : RegIdx) : Statement (.sub rd rs1 rs2) :=
  (of_encodeR 0b0100000 rs2 rs1 0b000 rd 0x33).trans rfl

theorem sll (rd rs1 rs2 : RegIdx) : Statement (.sll rd rs1 rs2) :=
  (of_encodeR 0b0000000 rs2 rs1 0b001 rd 0x33).trans rfl

theorem slt (rd rs1 rs2 : RegIdx) : Statement (.slt rd rs1 rs2) :=
  (of_encodeR 0b0000000 rs2 rs1 0b010 rd 0x33).trans rfl

theorem sltu (rd rs1 rs2 : RegIdx) : Statement (.sltu rd rs1 rs2) :=
  (of_encodeR 0b0000000 rs2 rs1 0b011 rd 0x33).trans rfl

theorem xor (rd rs1 rs2 : RegIdx) : Statement (.xor rd rs1 rs2) :=
  (of_encodeR 0b0000000 rs2 rs1 0b100 rd 0x33).trans rfl

theorem srl (rd rs1 rs2 : RegIdx) : Statement (.srl rd rs1 rs2) :=
  (of_encodeR 0b0000000 rs2 rs1 0b101 rd 0x33).trans rfl

theorem sra (rd rs1 rs2 : RegIdx) : Statement (.sra rd rs1 rs2) :=
  (of_encodeR 0b0100000 rs2 rs1 0b101 rd 0x33).trans rfl

theorem or (rd rs1 rs2 : RegIdx) : Statement (.or rd rs1 rs2) :=
  (of_encodeR 0b0000000 rs2 rs1 0b110 rd 0x33).trans rfl

theorem and (rd rs1 rs2 : RegIdx) : Statement (.and rd rs1 rs2) :=
  (of_encodeR 0b0000000 rs2 rs1 0b111 rd 0x33).trans rfl

theorem addi (rd rs1 : RegIdx) (imm : BitVec 12) : Statement (.addi rd rs1 imm) :=
  (of_encodeI imm rs1 0b000 rd 0x13).trans rfl

theorem slti (rd rs1 : RegIdx) (imm : BitVec 12) : Statement (.slti rd rs1 imm) :=
  (of_encodeI imm rs1 0b010 rd 0x13).trans rfl

theorem sltiu (rd rs1 : RegIdx) (imm : BitVec 12) : Statement (.sltiu rd rs1 imm) :=
  (of_encodeI imm rs1 0b011 rd 0x13).trans rfl

theorem xori (rd rs1 : RegIdx) (imm : BitVec 12) : Statement (.xori rd rs1 imm) :=
  (of_encodeI imm rs1 0b100 rd 0x13).trans rfl

theorem ori (rd rs1 : RegIdx) (imm : BitVec 12) : Statement (.ori rd rs1 imm) :=
  (of_encodeI imm rs1 0b110 rd 0x13).trans rfl

theorem andi (rd rs1 : RegIdx) (imm : BitVec 12) : Statement (.andi rd rs1 imm) :=
  (of_encodeI imm rs1 0b111 rd 0x13).trans rfl

theorem slli (rd rs1 : RegIdx) (shamt : BitVec 5) : Statement (.slli rd rs1 shamt) :=
  (of_encodeR 0b0000000 shamt rs1 0b001 rd 0x13).trans rfl

theorem srli (rd rs1 : RegIdx) (shamt : BitVec 5) : Statement (.srli rd rs1 shamt) :=
  (of_encodeR 0b0000000 shamt rs1 0b101 rd 0x13).trans rfl

theorem srai (rd rs1 : RegIdx) (shamt : BitVec 5) : Statement (.srai rd rs1 shamt) :=
  (of_encodeR 0b0100000 shamt rs1 0b101 rd 0x13).trans rfl

theorem lb (rd rs1 : RegIdx) (imm : BitVec 12) : Statement (.lb rd rs1 imm) :=
  (of_encodeI imm rs1 0b000 rd 0x03).trans rfl

theorem lh (rd rs1 : RegIdx) (imm : BitVec 12) : Statement (.lh rd rs1 imm) :=
  (of_encodeI imm rs1 0b001 rd 0x03).trans rfl

theorem lw (rd rs1 : RegIdx) (imm : BitVec 12) : Statement (.lw rd rs1 imm) :=
  (of_encodeI imm rs1 0b010 rd 0x03).trans rfl

theorem lbu (rd rs1 : RegIdx) (imm : BitVec 12) : Statement (.lbu rd rs1 imm) :=
  (of_encodeI imm rs1 0b100 rd 0x03).trans rfl

theorem lhu (rd rs1 : RegIdx) (imm : BitVec 12) : Statement (.lhu rd rs1 imm) :=
  (of_encodeI imm rs1 0b101 rd 0x03).trans rfl

theorem sb (rs1 rs2 : RegIdx) (imm : BitVec 12) : Statement (.sb rs1 rs2 imm) :=
  (of_encodeS imm rs2 rs1 0b000 0x23).trans rfl

theorem sh (rs1 rs2 : RegIdx) (imm : BitVec 12) : Statement (.sh rs1 rs2 imm) :=
  (of_encodeS imm rs2 rs1 0b001 0x23).trans rfl

theorem sw (rs1 rs2 : RegIdx) (imm : BitVec 12) : Statement (.sw rs1 rs2 imm) :=
  (of_encodeS imm rs2 rs1 0b010 0x23).trans rfl

theorem beq (rs1 rs2 : RegIdx) (off : BitVec 13) : Statement (.beq rs1 rs2 off) :=
  (of_encodeB off rs2 rs1 0b000 0x63).trans rfl

theorem bne (rs1 rs2 : RegIdx) (off : BitVec 13) : Statement (.bne rs1 rs2 off) :=
  (of_encodeB off rs2 rs1 0b001 0x63).trans rfl

theorem blt (rs1 rs2 : RegIdx) (off : BitVec 13) : Statement (.blt rs1 rs2 off) :=
  (of_encodeB off rs2 rs1 0b100 0x63).trans rfl

theorem bge (rs1 rs2 : RegIdx) (off : BitVec 13) : Statement (.bge rs1 rs2 off) :=
  (of_encodeB off rs2 rs1 0b101 0x63).trans rfl

theorem bltu (rs1 rs2 : RegIdx) (off : BitVec 13) : Statement (.bltu rs1 rs2 off) :=
  (of_encodeB off rs2 rs1 0b110 0x63).trans rfl

theorem bgeu (rs1 rs2 : RegIdx) (off : BitVec 13) : Statement (.bgeu rs1 rs2 off) :=
  (of_encodeB off rs2 rs1 0b111 0x63).trans rfl

theorem jal (rd : RegIdx) (off : BitVec 21) : Statement (.jal rd off) :=
  (of_encodeJ off rd 0x6F).trans rfl

theorem jalr (rd rs1 : RegIdx) (imm : BitVec 12) (ignored : BitVec 3) : Statement (.jalr rd rs1 imm ignored) :=
  (of_encodeI_opcode imm rs1 ignored rd 0x67).trans rfl

theorem lui (rd : RegIdx) (imm : BitVec 20) : Statement (.lui rd imm) :=
  (of_encodeU imm rd 0x37).trans rfl

theorem auipc (rd : RegIdx) (imm : BitVec 20) : Statement (.auipc rd imm) :=
  (of_encodeU imm rd 0x17).trans rfl

theorem fence (ignored : BitVec 25) : Statement (.fence ignored) :=
  (of_encodeRest ignored 0x0F#7).trans rfl

theorem system (payload : BitVec 25) : Statement (.system payload) :=
  (of_encodeRest payload 0x73#7).trans rfl

end Sys2Proof.Laws.SelectsRow
end

