-- ==== Sys2Proof/Tests/Slice0.lean ====
section
/-! SUPPORT. Tests. Expected results are those of 95_test_vectors.md, whose row each step test names, and of
the worked examples of the rules; the words of the decode tests are put together here from the tables of
30_encoding.md R71 to R86. -/

namespace Sys2Proof.Tests

open Sys2Proof Sys2Proof.Machine

/-! ## Helpers -/

/-- The next state, where there is one. -/
def nextOf : Result → Option State
  | .next t => some t
  | .fault _ => none
  | .refused _ => none

/-- A memory after some writes. -/
def withBytes (m : Memory) (bytes : List (Nat × Byte)) : Memory :=
  bytes.foldl (fun m p => m.set p.1 p.2) m

/-- Reset state at a capacity with a program counter, registers, bytes, and a word at the program counter. -/
def machine (capExp : Fin 31) (pc : Word) (regs : List (RegIdx × Word)) (bytes : List (Nat × Byte))
    (w : Word) : State :=
  let empty : State := { State.reset with pc := pc, mem := { capExp := capExp, cells := [] } }
  let withRegs := regs.foldl (fun s p => s.writeReg p.1 p.2) empty
  State.placeWord { withRegs with mem := withBytes withRegs.mem bytes } w

/-- Program counter and one register after one step that leaves the engine Running. -/
def regSeen (s : State) (r : RegIdx) : Option (Word × Word) :=
  match nextOf (step s) with
  | some t => if t.run = .running then some (t.pc, t.readReg r) else none
  | none => none

/-- Program counter and some bytes after one step. -/
def bytesSeen (s : State) (ks : List Nat) : Option (Word × List Byte) :=
  (nextOf (step s)).map fun t => (t.pc, ks.map t.mem.get)

/-- Program counter and halt reason after one step. -/
def haltSeen (s : State) : Option (Word × HaltReason) :=
  match nextOf (step s) with
  | some t => match t.run with
    | .halted reason => some (t.pc, reason)
    | .running => none
  | none => none

/-! ## Well-formedness: an odd offset has no word (30_encoding.md R75, R77) -/

theorem test_beq_odd_offset_refused : (Instr.beq 1 2 0x001).wellFormed = false := by decide
theorem test_bne_odd_offset_refused : (Instr.bne 1 2 0x1FF).wellFormed = false := by decide
theorem test_blt_odd_offset_refused : (Instr.blt 1 2 0x1FFF).wellFormed = false := by decide
theorem test_bge_odd_offset_refused : (Instr.bge 1 2 0x003).wellFormed = false := by decide
theorem test_bltu_odd_offset_refused : (Instr.bltu 1 2 0x801).wellFormed = false := by decide
theorem test_bgeu_odd_offset_refused : (Instr.bgeu 1 2 0x1001).wellFormed = false := by decide
theorem test_jal_odd_offset_refused : (Instr.jal 1 0x100001).wellFormed = false := by decide
theorem test_even_offsets_accepted :
    (Instr.beq 1 2 0x1FFE).wellFormed = true ∧ (Instr.jal 1 0x1FFFFE).wellFormed = true := by decide

/-! ## Decoding: words written field by field, highest bits first (R71 to R86) -/

theorem test_decode_add :
    decode (0b0000000#7 ++ 0b00010#5 ++ 0b00001#5 ++ 0b000#3 ++ 0b00011#5 ++ 0b0110011#7) =
      .ok (.add 3 1 2) := by decide
theorem test_decode_sub :
    decode (0b0100000#7 ++ 0b00010#5 ++ 0b00001#5 ++ 0b000#3 ++ 0b00011#5 ++ 0b0110011#7) =
      .ok (.sub 3 1 2) := by decide
theorem test_decode_sll :
    decode (0b0000000#7 ++ 0b00010#5 ++ 0b00001#5 ++ 0b001#3 ++ 0b00011#5 ++ 0b0110011#7) =
      .ok (.sll 3 1 2) := by decide
theorem test_decode_slt :
    decode (0b0000000#7 ++ 0b00010#5 ++ 0b00001#5 ++ 0b010#3 ++ 0b00011#5 ++ 0b0110011#7) =
      .ok (.slt 3 1 2) := by decide
theorem test_decode_sltu :
    decode (0b0000000#7 ++ 0b00010#5 ++ 0b00001#5 ++ 0b011#3 ++ 0b00011#5 ++ 0b0110011#7) =
      .ok (.sltu 3 1 2) := by decide
theorem test_decode_xor :
    decode (0b0000000#7 ++ 0b00010#5 ++ 0b00001#5 ++ 0b100#3 ++ 0b00011#5 ++ 0b0110011#7) =
      .ok (.xor 3 1 2) := by decide
theorem test_decode_srl :
    decode (0b0000000#7 ++ 0b00010#5 ++ 0b00001#5 ++ 0b101#3 ++ 0b00011#5 ++ 0b0110011#7) =
      .ok (.srl 3 1 2) := by decide
theorem test_decode_sra :
    decode (0b0100000#7 ++ 0b00010#5 ++ 0b00001#5 ++ 0b101#3 ++ 0b00011#5 ++ 0b0110011#7) =
      .ok (.sra 3 1 2) := by decide
theorem test_decode_or :
    decode (0b0000000#7 ++ 0b00010#5 ++ 0b00001#5 ++ 0b110#3 ++ 0b00011#5 ++ 0b0110011#7) =
      .ok (.or 3 1 2) := by decide
theorem test_decode_and :
    decode (0b0000000#7 ++ 0b00010#5 ++ 0b00001#5 ++ 0b111#3 ++ 0b00011#5 ++ 0b0110011#7) =
      .ok (.and 3 1 2) := by decide
theorem test_decode_addi :
    decode (0b101010111100#12 ++ 0b00001#5 ++ 0b000#3 ++ 0b00011#5 ++ 0b0010011#7) =
      .ok (.addi 3 1 0xABC) := by decide
theorem test_decode_slti :
    decode (0b101010111100#12 ++ 0b00001#5 ++ 0b010#3 ++ 0b00011#5 ++ 0b0010011#7) =
      .ok (.slti 3 1 0xABC) := by decide
theorem test_decode_sltiu :
    decode (0b101010111100#12 ++ 0b00001#5 ++ 0b011#3 ++ 0b00011#5 ++ 0b0010011#7) =
      .ok (.sltiu 3 1 0xABC) := by decide
theorem test_decode_xori :
    decode (0b101010111100#12 ++ 0b00001#5 ++ 0b100#3 ++ 0b00011#5 ++ 0b0010011#7) =
      .ok (.xori 3 1 0xABC) := by decide
theorem test_decode_ori :
    decode (0b101010111100#12 ++ 0b00001#5 ++ 0b110#3 ++ 0b00011#5 ++ 0b0010011#7) =
      .ok (.ori 3 1 0xABC) := by decide
theorem test_decode_andi :
    decode (0b101010111100#12 ++ 0b00001#5 ++ 0b111#3 ++ 0b00011#5 ++ 0b0010011#7) =
      .ok (.andi 3 1 0xABC) := by decide
theorem test_decode_slli :
    decode (0b0000000#7 ++ 0b10011#5 ++ 0b00001#5 ++ 0b001#3 ++ 0b00011#5 ++ 0b0010011#7) =
      .ok (.slli 3 1 19) := by decide
theorem test_decode_srli :
    decode (0b0000000#7 ++ 0b10011#5 ++ 0b00001#5 ++ 0b101#3 ++ 0b00011#5 ++ 0b0010011#7) =
      .ok (.srli 3 1 19) := by decide
theorem test_decode_srai :
    decode (0b0100000#7 ++ 0b10011#5 ++ 0b00001#5 ++ 0b101#3 ++ 0b00011#5 ++ 0b0010011#7) =
      .ok (.srai 3 1 19) := by decide
theorem test_decode_lb :
    decode (0b101010111100#12 ++ 0b00001#5 ++ 0b000#3 ++ 0b00011#5 ++ 0b0000011#7) =
      .ok (.lb 3 1 0xABC) := by decide
theorem test_decode_lh :
    decode (0b101010111100#12 ++ 0b00001#5 ++ 0b001#3 ++ 0b00011#5 ++ 0b0000011#7) =
      .ok (.lh 3 1 0xABC) := by decide
theorem test_decode_lw :
    decode (0b101010111100#12 ++ 0b00001#5 ++ 0b010#3 ++ 0b00011#5 ++ 0b0000011#7) =
      .ok (.lw 3 1 0xABC) := by decide
theorem test_decode_lbu :
    decode (0b101010111100#12 ++ 0b00001#5 ++ 0b100#3 ++ 0b00011#5 ++ 0b0000011#7) =
      .ok (.lbu 3 1 0xABC) := by decide
theorem test_decode_lhu :
    decode (0b101010111100#12 ++ 0b00001#5 ++ 0b101#3 ++ 0b00011#5 ++ 0b0000011#7) =
      .ok (.lhu 3 1 0xABC) := by decide
theorem test_decode_sb :
    decode (0b1010101#7 ++ 0b00010#5 ++ 0b00001#5 ++ 0b000#3 ++ 0b11100#5 ++ 0b0100011#7) =
      .ok (.sb 1 2 0xABC) := by decide
theorem test_decode_sh :
    decode (0b1010101#7 ++ 0b00010#5 ++ 0b00001#5 ++ 0b001#3 ++ 0b11100#5 ++ 0b0100011#7) =
      .ok (.sh 1 2 0xABC) := by decide
theorem test_decode_sw :
    decode (0b1010101#7 ++ 0b00010#5 ++ 0b00001#5 ++ 0b010#3 ++ 0b11100#5 ++ 0b0100011#7) =
      .ok (.sw 1 2 0xABC) := by decide
theorem test_decode_beq :
    decode (0b1#1 ++ 0b010101#6 ++ 0b00010#5 ++ 0b00001#5 ++ 0b000#3 ++ 0b1110#4 ++ 0b0#1 ++ 0b1100011#7) =
      .ok (.beq 1 2 0x12BC) := by decide
theorem test_decode_bne :
    decode (0b1#1 ++ 0b010101#6 ++ 0b00010#5 ++ 0b00001#5 ++ 0b001#3 ++ 0b1110#4 ++ 0b0#1 ++ 0b1100011#7) =
      .ok (.bne 1 2 0x12BC) := by decide
theorem test_decode_blt :
    decode (0b1#1 ++ 0b010101#6 ++ 0b00010#5 ++ 0b00001#5 ++ 0b100#3 ++ 0b1110#4 ++ 0b0#1 ++ 0b1100011#7) =
      .ok (.blt 1 2 0x12BC) := by decide
theorem test_decode_bge :
    decode (0b1#1 ++ 0b010101#6 ++ 0b00010#5 ++ 0b00001#5 ++ 0b101#3 ++ 0b1110#4 ++ 0b0#1 ++ 0b1100011#7) =
      .ok (.bge 1 2 0x12BC) := by decide
theorem test_decode_bltu :
    decode (0b1#1 ++ 0b010101#6 ++ 0b00010#5 ++ 0b00001#5 ++ 0b110#3 ++ 0b1110#4 ++ 0b0#1 ++ 0b1100011#7) =
      .ok (.bltu 1 2 0x12BC) := by decide
theorem test_decode_bgeu :
    decode (0b1#1 ++ 0b010101#6 ++ 0b00010#5 ++ 0b00001#5 ++ 0b111#3 ++ 0b1110#4 ++ 0b0#1 ++ 0b1100011#7) =
      .ok (.bgeu 1 2 0x12BC) := by decide
theorem test_decode_jal :
    decode (0b1#1 ++ 0b0111100110#10 ++ 0b1#1 ++ 0b00101010#8 ++ 0b00011#5 ++ 0b1101111#7) =
      .ok (.jal 3 0x12ABCC) := by decide
theorem test_decode_jalr :
    decode (0b101010111100#12 ++ 0b00001#5 ++ 0b101#3 ++ 0b00011#5 ++ 0b1100111#7) =
      .ok (.jalr 3 1 0xABC 5) := by decide
theorem test_decode_lui :
    decode (0b10101011110011011110#20 ++ 0b00011#5 ++ 0b0110111#7) =
      .ok (.lui 3 0xABCDE) := by decide
theorem test_decode_auipc :
    decode (0b10101011110011011110#20 ++ 0b00011#5 ++ 0b0010111#7) =
      .ok (.auipc 3 0xABCDE) := by decide
theorem test_decode_fence :
    decode (0b000011111111#12 ++ 0b00000#5 ++ 0b000#3 ++ 0b00000#5 ++ 0b0001111#7) =
      .ok (.fence 0x1FE000) := by decide
theorem test_decode_system :
    decode (0b000000000001#12 ++ 0b00000#5 ++ 0b000#3 ++ 0b00000#5 ++ 0b1110011#7) =
      .ok (.system 0x002000) := by decide

/-- V30-4: every field and immediate of one word. -/
theorem test_decodeFields_all : decodeFields 0xFF9FF0EF = ⟨0x6F, 1, 7, 31, 25, 0x7F, 0xFFFFFFF9, 0xFFFFFFE1,
    0xFFFFFFE0, 0xFF9FF000, 0xFFFFFFF8, 25⟩ := by decide

/-! The seven cases of R87, in their order. -/

theorem test_reject_opcode : decode 0x0020A1AF = .error .unknownOpcode := by decide
theorem test_reject_op : decode 0x022081B3 = .error .opFunct := by decide
theorem test_reject_slli : decode 0x40409193 = .error .shiftLeftFunct7 := by decide
theorem test_reject_srxi : decode 0xC040D193 = .error .shiftRightFunct7 := by decide
theorem test_reject_load : decode 0x0000E183 = .error .loadFunct3 := by decide
theorem test_reject_store : decode 0x0020B023 = .error .storeFunct3 := by decide
theorem test_reject_branch : decode 0x0020B463 = .error .branchFunct3 := by decide

/-- Bytes are read lowest address first, and what follows the word is handed back (R70; R44). -/
theorem test_decodeBytes : decodeBytes [0x93, 0x00, 0x50, 0x00, 0x73] = .ok (.addi 1 0 5, [0x73])
    ∧ decodeBytes [0x93, 0x00, 0x50] = .error .truncated
    ∧ decodeTableWord 32 0x00500093 = some (.addi 1 0 5) ∧ decodeTableWord 32 0 = none := by decide

/-! ## One step of each instruction (95_test_vectors.md section 4) -/

/-- V41-2, add x3, x1, x2. -/
theorem test_add_wraps :
    regSeen (machine 10 0x0 [(1, 0xFFFFFFFF), (2, 0x1), (3, 0xAA)] [] 0x002081B3) 3 = some (0x4, 0x0) := by decide

/-- V41-4, add x1, x1, x1. -/
theorem test_add_same_registers :
    regSeen (machine 10 0x0 [(1, 0x80000001)] [] 0x001080B3) 1 = some (0x4, 0x2) := by decide

/-- V41-6, sub x3, x1, x2. -/
theorem test_sub_borrows :
    regSeen (machine 10 0x0 [(1, 0x5), (2, 0x7)] [] 0x402081B3) 3 = some (0x4, 0xFFFFFFFE) := by decide

/-- V41-7, sub x3, x1, x2. -/
theorem test_sub_least :
    regSeen (machine 10 0x0 [(1, 0x80000000), (2, 0x1)] [] 0x402081B3) 3 = some (0x4, 0x7FFFFFFF) := by decide

/-- V41-8, sll x3, x1, x2. -/
theorem test_sll_masks_amount :
    regSeen (machine 10 0x0 [(1, 0x1), (2, 0x23)] [] 0x002091B3) 3 = some (0x4, 0x8) := by decide

/-- V41-9, sll x3, x1, x2. -/
theorem test_sll_by_32 :
    regSeen (machine 10 0x0 [(1, 0xFFFFFFFF), (2, 0x20)] [] 0x002091B3) 3 = some (0x4, 0xFFFFFFFF) := by decide

/-- V41-11, slt x3, x1, x2. -/
theorem test_slt_negative :
    regSeen (machine 10 0x0 [(1, 0xFFFFFFFF), (2, 0x1)] [] 0x0020A1B3) 3 = some (0x4, 0x1) := by decide

/-- V41-15, slt x3, x1, x2. -/
theorem test_slt_equal :
    regSeen (machine 10 0x0 [(1, 0x4), (2, 0x4), (3, 0xAA)] [] 0x0020A1B3) 3 = some (0x4, 0x0) := by decide

/-- V41-12, sltu x3, x1, x2. -/
theorem test_sltu_top :
    regSeen (machine 10 0x0 [(1, 0xFFFFFFFF), (2, 0x1), (3, 0xAA)] [] 0x0020B1B3) 3 = some (0x4, 0x0) := by decide

/-- V41-14, sltu x3, x0, x2. -/
theorem test_sltu_zero :
    regSeen (machine 10 0x0 [(2, 0x9)] [] 0x002031B3) 3 = some (0x4, 0x1) := by decide

/-- V41-16, xor x3, x1, x2. -/
theorem test_xor :
    regSeen (machine 10 0x0 [(1, 0xFF00), (2, 0xFF0)] [] 0x0020C1B3) 3 = some (0x4, 0xF0F0) := by decide

/-- V41-17, srl x3, x1, x2. -/
theorem test_srl :
    regSeen (machine 10 0x0 [(1, 0x80000000), (2, 0x4)] [] 0x0020D1B3) 3 = some (0x4, 0x8000000) := by decide

/-- V41-21, srl x3, x1, x2. -/
theorem test_srl_masks_amount :
    regSeen (machine 10 0x0 [(1, 0x80000000), (2, 0x3F)] [] 0x0020D1B3) 3 = some (0x4, 0x1) := by decide

/-- V41-18, sra x3, x1, x2. -/
theorem test_sra :
    regSeen (machine 10 0x0 [(1, 0x80000000), (2, 0x4)] [] 0x4020D1B3) 3 = some (0x4, 0xF8000000) := by decide

/-- V41-20, sra x3, x1, x2. -/
theorem test_sra_masks_amount :
    regSeen (machine 10 0x0 [(1, 0x7FFFFFFF), (2, 0xFFFFFFFF), (3, 0xAA)] [] 0x4020D1B3) 3 = some (0x4, 0x0) := by decide

/-- V41-22, or x3, x1, x2. -/
theorem test_or :
    regSeen (machine 10 0x0 [(1, 0xFF00), (2, 0xFF0)] [] 0x0020E1B3) 3 = some (0x4, 0xFFF0) := by decide

/-- V41-23, and x3, x1, x2. -/
theorem test_and :
    regSeen (machine 10 0x0 [(1, 0xFF00), (2, 0xFF0)] [] 0x0020F1B3) 3 = some (0x4, 0xF00) := by decide

/-- V42-2, addi x1, x1, -1. -/
theorem test_addi_negative :
    regSeen (machine 10 0x0 [(1, 0x0)] [] 0xFFF08093) 1 = some (0x4, 0xFFFFFFFF) := by decide

/-- V42-3, addi x3, x1, 2047. -/
theorem test_addi_wraps :
    regSeen (machine 10 0x0 [(1, 0x7FFFFFFF)] [] 0x7FF08193) 3 = some (0x4, 0x800007FE) := by decide

/-- V42-5, slti x3, x1, -1. -/
theorem test_slti_true :
    regSeen (machine 10 0x0 [(1, 0xFFFFFFFE)] [] 0xFFF0A193) 3 = some (0x4, 0x1) := by decide

/-- V42-6, slti x3, x1, -1. -/
theorem test_slti_false :
    regSeen (machine 10 0x0 [(1, 0x0), (3, 0xAA)] [] 0xFFF0A193) 3 = some (0x4, 0x0) := by decide

/-- V42-8, sltiu x3, x1, -1. -/
theorem test_sltiu_zero_extends :
    regSeen (machine 10 0x0 [(1, 0x1000), (3, 0xAA)] [] 0xFFF0B193) 3 = some (0x4, 0x0) := by decide

/-- V42-9, sltiu x3, x1, -2048. -/
theorem test_sltiu_least_field :
    regSeen (machine 10 0x0 [(1, 0x7FF)] [] 0x8000B193) 3 = some (0x4, 0x1) := by decide

/-- V42-14, xori x3, x1, -1. -/
theorem test_xori_not :
    regSeen (machine 10 0x0 [(1, 0xFF00)] [] 0xFFF0C193) 3 = some (0x4, 0xFFFF00FF) := by decide

/-- V42-15, ori x3, x1, 0x0F0. -/
theorem test_ori :
    regSeen (machine 10 0x0 [(1, 0xFF00)] [] 0x0F00E193) 3 = some (0x4, 0xFFF0) := by decide

/-- V42-16, ori x3, x0, -2048. -/
theorem test_ori_negative :
    regSeen (machine 10 0x0 [] [] 0x80006193) 3 = some (0x4, 0xFFFFF800) := by decide

/-- V42-17, andi x3, x1, 0x0FF. -/
theorem test_andi :
    regSeen (machine 10 0x0 [(1, 0x12345678)] [] 0x0FF0F193) 3 = some (0x4, 0x78) := by decide

/-- V42-18, andi x3, x1, -16. -/
theorem test_andi_negative :
    regSeen (machine 10 0x0 [(1, 0x12345678)] [] 0xFF00F193) 3 = some (0x4, 0x12345670) := by decide

/-- V42-19, slli x3, x1, 4. -/
theorem test_slli :
    regSeen (machine 10 0x0 [(1, 0x12345678)] [] 0x00409193) 3 = some (0x4, 0x23456780) := by decide

/-- V42-20, slli x3, x1, 31. -/
theorem test_slli_31 :
    regSeen (machine 10 0x0 [(1, 0x3)] [] 0x01F09193) 3 = some (0x4, 0x80000000) := by decide

/-- V42-21, srli x3, x1, 4. -/
theorem test_srli :
    regSeen (machine 10 0x0 [(1, 0x80000000)] [] 0x0040D193) 3 = some (0x4, 0x8000000) := by decide

/-- V42-22, srai x3, x1, 4. -/
theorem test_srai :
    regSeen (machine 10 0x0 [(1, 0x80000000)] [] 0x4040D193) 3 = some (0x4, 0xF8000000) := by decide

/-- V42-23, srai x3, x1, 31. -/
theorem test_srai_31 :
    regSeen (machine 10 0x0 [(1, 0x80000000)] [] 0x41F0D193) 3 = some (0x4, 0xFFFFFFFF) := by decide

/-- V43-2, lb x3, 1(x1). -/
theorem test_lb_all_ones :
    regSeen (machine 10 0x0 [(1, 0x100)] [(0x100, 0x80), (0x101, 0xFF), (0x102, 0x7F), (0x103, 0x01)] 0x00108183) 3 = some (0x4, 0xFFFFFFFF) := by decide

/-- V43-5, lb x3, 2(x1). -/
theorem test_lb_positive :
    regSeen (machine 10 0x0 [(1, 0x100)] [(0x100, 0x80), (0x101, 0xFF), (0x102, 0x7F), (0x103, 0x01)] 0x00208183) 3 = some (0x4, 0x7F) := by decide

/-- V43-9, lh x3, 1(x1). -/
theorem test_lh_odd_address :
    regSeen (machine 10 0x0 [(1, 0x100)] [(0x100, 0x80), (0x101, 0xFF), (0x102, 0x7F), (0x103, 0x01)] 0x00109183) 3 = some (0x4, 0x7FFF) := by decide

/-- V43-16, lh x3, 0(x1). -/
theorem test_lh_wraps_memory :
    regSeen (machine 10 0x40 [(1, 0xFFF)] [(0x0, 0x83), (0xFFF, 0x22)] 0x00009183) 3 = some (0x44, 0xFFFF8322) := by decide

/-- V43-15, lw x3, 0(x1). -/
theorem test_lw_wraps_memory :
    regSeen (machine 10 0x40 [(1, 0xFFE)] [(0x0, 0x33), (0x1, 0x44), (0xFFE, 0x11), (0xFFF, 0x22)] 0x0000A183) 3 = some (0x44, 0x44332211) := by decide

/-- V43-19, lw x1, 0(x1). -/
theorem test_lw_same_register :
    regSeen (machine 10 0x0 [(1, 0x100)] [(0x100, 0x80), (0x101, 0xFF), (0x102, 0x7F), (0x103, 0x01)] 0x0000A083) 1 = some (0x4, 0x17FFF80) := by decide

/-- V43-3, lbu x3, 1(x1). -/
theorem test_lbu :
    regSeen (machine 10 0x0 [(1, 0x100)] [(0x100, 0x80), (0x101, 0xFF), (0x102, 0x7F), (0x103, 0x01)] 0x0010C183) 3 = some (0x4, 0xFF) := by decide

/-- V43-7, lhu x3, 0(x1). -/
theorem test_lhu :
    regSeen (machine 10 0x0 [(1, 0x100)] [(0x100, 0x80), (0x101, 0xFF), (0x102, 0x7F), (0x103, 0x01)] 0x0000D183) 3 = some (0x4, 0xFF80) := by decide

/-- V44-8, sb x2, 0(x1). -/
theorem test_sb_alias :
    bytesSeen (machine 10 0x0 [(1, 0x2100), (2, 0xAABBCCDD)] [] 0x00208023)
      [0x100] = some (0x4, [0xDD]) := by decide

/-- V44-11, sb x2, 0(x1). -/
theorem test_sb_neighbours :
    bytesSeen (machine 10 0x0 [(1, 0x101), (2, 0xEE)] [(0x100, 0x11), (0x101, 0x22), (0x102, 0x33)] 0x00208023)
      [0x100, 0x101, 0x102] = some (0x4, [0x11, 0xEE, 0x33]) := by decide

/-- V44-2, sh x2, 0(x1). -/
theorem test_sh :
    bytesSeen (machine 10 0x0 [(1, 0x100), (2, 0xAABBCCDD)] [] 0x00209023)
      [0x100, 0x101] = some (0x4, [0xDD, 0xCC]) := by decide

/-- V44-7, sh x2, 0(x1). -/
theorem test_sh_wraps_memory :
    bytesSeen (machine 10 0x40 [(1, 0xFFF), (2, 0xAABBCCDD)] [] 0x00209023)
      [0x0, 0xFFF] = some (0x44, [0xCC, 0xDD]) := by decide

/-- V44-6, sw x2, 0(x1). -/
theorem test_sw_wraps_memory :
    bytesSeen (machine 10 0x40 [(1, 0xFFE), (2, 0xAABBCCDD)] [] 0x0020A023)
      [0x0, 0x1, 0xFFE, 0xFFF] = some (0x44, [0xBB, 0xAA, 0xDD, 0xCC]) := by decide

/-- V44-9, sw x0, 0(x1). -/
theorem test_sw_zero :
    bytesSeen (machine 10 0x0 [(1, 0x100)] [(0x100, 0x01), (0x101, 0x02), (0x102, 0x03), (0x103, 0x04)] 0x0000A023)
      [0x100, 0x101, 0x102, 0x103] = some (0x4, [0x00, 0x00, 0x00, 0x00]) := by decide

/-- V45-1, beq x1, x2, 8. -/
theorem test_beq_taken :
    regSeen (machine 10 0x40 [(1, 0x9), (2, 0x9)] [] 0x00208463) 0 = some (0x48, 0x0) := by decide

/-- V45-18, beq x1, x2, 8. -/
theorem test_beq_taken_unreduced :
    regSeen (machine 10 0xFFC [(1, 0x2), (2, 0x2)] [] 0x00208463) 0 = some (0x1004, 0x0) := by decide

/-- V45-4, bne x1, x2, -4. -/
theorem test_bne_backward :
    regSeen (machine 10 0x40 [(1, 0x9), (2, 0x8)] [] 0xFE209EE3) 0 = some (0x3C, 0x0) := by decide

/-- V45-5, bne x1, x2, 8. -/
theorem test_bne_not_taken :
    regSeen (machine 10 0x40 [(1, 0x9), (2, 0x9)] [] 0x00209463) 0 = some (0x44, 0x0) := by decide

/-- V45-6, blt x1, x2, 8. -/
theorem test_blt_signed :
    regSeen (machine 10 0x40 [(1, 0xFFFFFFFF), (2, 0x1)] [] 0x0020C463) 0 = some (0x48, 0x0) := by decide

/-- V45-11, blt x1, x2, 8. -/
theorem test_blt_equal :
    regSeen (machine 10 0x40 [(1, 0x7), (2, 0x7)] [] 0x0020C463) 0 = some (0x44, 0x0) := by decide

/-- V45-8, bge x1, x2, 8. -/
theorem test_bge_not_taken :
    regSeen (machine 10 0x40 [(1, 0xFFFFFFFF), (2, 0x1)] [] 0x0020D463) 0 = some (0x44, 0x0) := by decide

/-- V45-10, bge x1, x2, 8. -/
theorem test_bge_equal :
    regSeen (machine 10 0x40 [(1, 0x7), (2, 0x7)] [] 0x0020D463) 0 = some (0x48, 0x0) := by decide

/-- V45-7, bltu x1, x2, 8. -/
theorem test_bltu_not_taken :
    regSeen (machine 10 0x40 [(1, 0xFFFFFFFF), (2, 0x1)] [] 0x0020E463) 0 = some (0x44, 0x0) := by decide

/-- V45-9, bgeu x1, x2, 8. -/
theorem test_bgeu_taken :
    regSeen (machine 10 0x40 [(1, 0xFFFFFFFF), (2, 0x1)] [] 0x0020F463) 0 = some (0x48, 0x0) := by decide

/-- V45-12, bgeu x1, x0, 8. -/
theorem test_bgeu_zero :
    regSeen (machine 10 0x40 [(1, 0x0)] [] 0x0000F463) 0 = some (0x48, 0x0) := by decide

/-- V46-5, jal x1, 8. -/
theorem test_jal_link_unreduced :
    regSeen (machine 10 0xFFC [] [] 0x008000EF) 1 = some (0x1004, 0x1000) := by decide

/-- V46-7, jal x1, -1048576. -/
theorem test_jal_least :
    regSeen (machine 10 0x0 [] [] 0x800000EF) 1 = some (0xFFF00000, 0x4) := by decide

/-- V46-11, jalr x1, 0(x1). -/
theorem test_jalr_same_register :
    regSeen (machine 10 0x20 [(1, 0x80)] [] 0x000080E7) 1 = some (0x80, 0x24) := by decide

/-- V46-13, jalr x1, 0(x5). -/
theorem test_jalr_clears_bit_0 :
    regSeen (machine 10 0x20 [(5, 0x103)] [] 0x000280E7) 1 = some (0x102, 0x24) := by decide

/-- V47-2, lui x3, 0xFFFFF. -/
theorem test_lui :
    regSeen (machine 10 0x0 [] [] 0xFFFFF1B7) 3 = some (0x4, 0xFFFFF000) := by decide

/-- V47-4, lui x0, 0x12345. -/
theorem test_lui_x0 :
    regSeen (machine 10 0x0 [] [] 0x12345037) 0 = some (0x4, 0x0) := by decide

/-- V47-8, auipc x3, 0. -/
theorem test_auipc_unreduced :
    regSeen (machine 10 0x1020 [] [] 0x00000197) 3 = some (0x24, 0x1020) := by decide

/-- V47-9, auipc x3, 0xFFFFF. -/
theorem test_auipc_wraps :
    regSeen (machine 10 0x1000 [(3, 0xAA)] [] 0xFFFFF197) 3 = some (0x4, 0x0) := by decide

/-- V48-1, fence. -/
theorem test_fence :
    regSeen (machine 10 0x10 [(1, 0x7)] [] 0x0FF0000F) 0 = some (0x14, 0x0) := by decide

/-- V48-4, (opcode 0x0F, rd = 3, rs1 = 1). -/
theorem test_fence_other_bits :
    regSeen (machine 10 0x10 [(1, 0x7)] [] 0x0000818F) 3 = some (0x14, 0x0) := by decide

/-- V48-5, ecall. -/
theorem test_ecall :
    haltSeen (machine 10 0xC [(1, 0x5)] [] 0x00000073) = some (0xC, .systemCall 0x00000073) := by decide

/-- V48-7, (csrrw x3, mscratch, x1 elsewhere). -/
theorem test_csrrw_word_halts :
    haltSeen (machine 10 0xC [(1, 0x5)] [] 0x340091F3) = some (0xC, .systemCall 0x340091F3) := by decide

/-- V40-2, (none fetched). -/
theorem test_pc_misaligned :
    haltSeen (machine 10 0xFFFFFFFE [] [] 0) = some (0xFFFFFFFE, .alignmentFault 0xFFFFFFFE) := by decide

/-- V40-6, addi x1, x0, 1. -/
theorem test_pc_wraps_capacity_16 :
    regSeen (machine 2 0xC [] [] 0x00100093) 1 = some (0x0, 0x1) := by decide

/-- V40-7, (all-zero word). -/
theorem test_zero_word :
    haltSeen (machine 10 0xC [] [] 0x00000000) = some (0xC, .decodeError 0x00 0 0x00) := by decide

/-- V42-28, (funct3 = 5, funct7 = 0x60). -/
theorem test_bad_shift_halts :
    haltSeen (machine 10 0x0 [(1, 0x80000000)] [] 0xC040D193) = some (0x0, .decodeError 0x13 5 0x60) := by decide

/-! ## The reset and the host's side -/

/-- An image of bytes lies at address 0 (V70; 70_reset_and_hazards.md R252). -/
theorem test_boot_image : (nextOf (boot 0 [0xA0, 0, 0xA2])).map (fun s => [0, 1, 2, 3].map s.mem.get) =
    some [0xA0, 0, 0xA2, 0] := by decide

/-- The empty image halts at once: what the first step from `State.reset` does (R255). -/
theorem test_reset_step : haltSeen State.reset = some (0, .decodeError 0 0 0) := by decide

/-- A placed word is what the next step runs, also where the program counter is unreduced. -/
theorem test_withFetchWord : regSeen (State.reset.withFetchWord 32 0x100002B7) 5 = some (4, 0x10000000) := by
  decide

/-- `x<index>=<decimal-value>` (S12). -/
theorem test_registerDump : (State.reset.writeReg 3 12).registerDump[3]? = some "x3=12" := by decide

/-! ## Witnesses: states and operands that meet the hypotheses of the statements

Where a statement has several clauses, each clause has a witness at a boundary of its range. -/

/-- StepRunsTheDecodedInstruction: the last word of memory, and an unreduced program counter. -/
theorem witness_StepRunsTheDecodedInstruction :
    (let s := machine 10 0xFFC [] [] 0x00100093
     s.run = .running ∧ s.pc.toNat % 4 = 0 ∧ decode (s.mem.loadWord s.pc) = .ok (.addi 1 0 1))
    ∧ (let s := machine 10 0xFFFFFFFC [] [] 0x00100073
       s.run = .running ∧ s.pc.toNat % 4 = 0 ∧ decode (s.mem.loadWord s.pc) = .ok (.system 0x2000)) := by
  decide

theorem witness_DecodeOfEncodeIsTheInstruction :
    (Instr.bgeu 31 0 0x1FFE).wellFormed = true ∧ (Instr.jal 31 0x100000).wellFormed = true
    ∧ (Instr.jalr 31 31 0xFFF 7).wellFormed = true := by decide

theorem witness_EncodeOfDecodeIsTheWord :
    decode 0xFFFFFFF3 = .ok (.system 0x1FFFFFF) ∧ decode 0x80000063 = .ok (.beq 0 0 0x1000) := by decide

theorem witness_DispatchIsTheOpcodeTable :
    (⟨0xFE00707F, 0x40005033⟩ : OpcodeRow) ∈ opcodeTable
    ∧ (⟨0xFE00707F, 0x40005033⟩ : OpcodeRow).selects 0x4020D1B3
    ∧ decode 0x4020D1B3 = .ok (.sra 3 1 2)
    ∧ (⟨0x0000007F, 0x00000073⟩ : OpcodeRow) ∈ opcodeTable
    ∧ (⟨0x0000007F, 0x00000073⟩ : OpcodeRow).selects 0xFFFFFFF3 := by decide

/-- A word of each case of R87, the boundary values among them, and words just beside the cases. -/
theorem witness_RejectedWordsAreTheSevenCases :
    noMapping 0x00000000 = true ∧ noMapping 0xFFFFFFFF = true ∧ noMapping 0x402091B3 = true
    ∧ noMapping 0x02409193 = true ∧ noMapping 0x2040D193 = true ∧ noMapping 0x0000F183 = true
    ∧ noMapping 0x0020F023 = true ∧ noMapping 0x0020A463 = true ∧ noMapping 0x402081B3 = false
    ∧ noMapping 0x4040D193 = false ∧ noMapping 0x0000D183 = false ∧ noMapping 0x0020C463 = false := by
  decide

/-- V30-2 and V30-13, V30-14: the sign changes between field values 0x7FF and 0x800. -/
theorem witness_SignedTwelveBitImmediates :
    0x7FF = (0x7E002FA3#32).toNat / 2 ^ 25 * 2 ^ 5 + (0x7E002FA3#32).toNat / 2 ^ 7 % 2 ^ 5
    ∧ (decodeFields 0x7E002FA3).immS.toInt = 2047
    ∧ 0x800 = (0x80002023#32).toNat / 2 ^ 25 * 2 ^ 5 + (0x80002023#32).toNat / 2 ^ 7 % 2 ^ 5
    ∧ (decodeFields 0x80002023).immS.toInt = -2048 := by decide

/-- V30-6 and V30-7: greatest and least branch offset. -/
theorem witness_BranchImmediateScatter :
    4094 = (0x7E000FE3#32).toNat / 2 ^ 31 * 2 ^ 12 + (0x7E000FE3#32).toNat / 2 ^ 7 % 2 * 2 ^ 11
      + (0x7E000FE3#32).toNat / 2 ^ 25 % 2 ^ 6 * 2 ^ 5 + (0x7E000FE3#32).toNat / 2 ^ 8 % 2 ^ 4 * 2
    ∧ (decodeFields 0x7E000FE3).immB.toInt = 4094
    ∧ 4096 = (0x80000063#32).toNat / 2 ^ 31 * 2 ^ 12 + (0x80000063#32).toNat / 2 ^ 7 % 2 * 2 ^ 11
      + (0x80000063#32).toNat / 2 ^ 25 % 2 ^ 6 * 2 ^ 5 + (0x80000063#32).toNat / 2 ^ 8 % 2 ^ 4 * 2
    ∧ (decodeFields 0x80000063).immB.toInt = -4096 := by decide

/-- V30-9 and V30-10: greatest and least JAL offset. -/
theorem witness_JumpImmediateScatter :
    1048574 = (0x7FFFF06F#32).toNat / 2 ^ 31 * 2 ^ 20 + (0x7FFFF06F#32).toNat / 2 ^ 12 % 2 ^ 8 * 2 ^ 12
      + (0x7FFFF06F#32).toNat / 2 ^ 20 % 2 * 2 ^ 11 + (0x7FFFF06F#32).toNat / 2 ^ 21 % 2 ^ 10 * 2
    ∧ (decodeFields 0x7FFFF06F).immJ.toInt = 1048574
    ∧ 1048576 = (0x8000006F#32).toNat / 2 ^ 31 * 2 ^ 20 + (0x8000006F#32).toNat / 2 ^ 12 % 2 ^ 8 * 2 ^ 12
      + (0x8000006F#32).toNat / 2 ^ 20 % 2 * 2 ^ 11 + (0x8000006F#32).toNat / 2 ^ 21 % 2 ^ 10 * 2
    ∧ (decodeFields 0x8000006F).immJ.toInt = -1048576 := by decide

theorem witness_DecodedOperandsAreTheFields :
    decode 0xFE20AE23 = .ok (.sw 1 2 0xFFC) ∧ decode 0x8000B193 = .ok (.sltiu 3 1 0x800) := by decide

/-- RunningStepOutcome: one Running state for each of the four cases, at their boundaries. -/
theorem witness_RunningStepOutcome :
    (let s := machine 10 0xFFFFFFFE [] [] 0x00000073
     s.run = .running ∧ s.pc.toNat % 4 ≠ 0)
    ∧ (let s := machine 0 0 [] [] 0xFFFFFFFF
       s.run = .running ∧ s.pc.toNat % 4 = 0 ∧ noMapping (s.mem.loadWord s.pc) = true)
    ∧ (let s := machine 10 0xFFC [] [] 0x340091F3
       s.run = .running ∧ s.pc.toNat % 4 = 0 ∧ noMapping (s.mem.loadWord s.pc) = false
         ∧ opNum (s.mem.loadWord s.pc) = 0x73)
    ∧ (let s := machine 10 0xFFFFFFFC [] [] 0x00000013
       s.run = .running ∧ s.pc.toNat % 4 = 0 ∧ noMapping (s.mem.loadWord s.pc) = false
         ∧ opNum (s.mem.loadWord s.pc) ≠ 0x73) := by decide

/-- Each of the three halts. -/
theorem witness_HaltChangesOnlyTheRunState :
    haltSeen (machine 10 0x22 [(1, 0x24)] [] 0) = some (0x22, .alignmentFault 0x22)
    ∧ haltSeen (machine 10 0xC [] [] 0xFFFFFFFF) = some (0xC, .decodeError 0x7F 7 0x7F)
    ∧ haltSeen (machine 10 0xC [] [] 0x00100073) = some (0xC, .systemCall 0x00100073) := by decide

theorem witness_HaltedIsTerminal :
    (State.reset.raise (.systemCall 0x73)).run = .halted (.systemCall 0x73) := by decide

theorem witness_ZeroWordHaltsWithDecodeError :
    State.reset.run = .running ∧ State.reset.pc.toNat % 4 = 0
    ∧ State.reset.mem.loadWord State.reset.pc = 0#32 := by decide

/-- The empty image, an image that fills the least memory, and a byte index on each side of its end. -/
theorem witness_BootLoadsTheImage :
    ([] : List Byte).length ≤ 2 ^ ((0 : Fin 31).val + 2)
    ∧ ([1, 2, 3, 4] : List Byte).length ≤ 2 ^ ((0 : Fin 31).val + 2)
    ∧ 3 < ([1, 2, 3, 4] : List Byte).length ∧ ([1, 2, 3, 4] : List Byte).length ≤ 4 := by decide

theorem witness_BootRefusesAnOverlongImage :
    2 ^ ((0 : Fin 31).val + 2) < ([1, 2, 3, 4, 5] : List Byte).length := by decide

/-- Both a step that stores and one that halts start in a state with the invariant. -/
theorem witness_StepKeepsTheInvariant :
    (machine 10 0x40 [(1, 0xFFE), (2, 0xAABBCCDD)] [] 0x0020A023).Inv
    ∧ bytesSeen (machine 10 0x40 [(1, 0xFFE), (2, 0xAABBCCDD)] [] 0x0020A023) [0xFFF] = some (0x44, [0xCC])
    ∧ (machine 10 0x22 [] [] 0).Inv
    ∧ haltSeen (machine 10 0x22 [] [] 0) = some (0x22, .alignmentFault 0x22) := by decide

theorem witness_BootMeetsTheInvariant :
    nextOf (boot 0 [0, 0, 0, 0x80]) = some { State.reset with mem := { capExp := 0, cells := [(3, 0x80)] } }
    ∧ nextOf (boot Config.referenceCapExp []) = some State.reset := by decide

theorem witness_StepKeepsTheCapacity : (nextOf (step (machine 0 0 [] [] 0x00000013))).isSome = true := by decide

/-- An alias of an address whose word wraps the end of memory (V20-16), and the least capacity (V20-19). -/
theorem witness_StoreThenLoadReturnsTheValue :
    (0x1FFE#32).toNat % State.reset.mem.cap = (0xFFE#32).toNat % State.reset.mem.cap
    ∧ ((State.reset.mem.storeWord 0xFFE 0xAABBCCDD).loadWord 0x1FFE) = 0xAABBCCDD
    ∧ (({ capExp := 0, cells := [] } : Memory).storeWord 2 0x01020304).get 3 = 0x03 := by decide

/-- The greatest offsets of a narrower read, across the end of memory (V20-16). -/
theorem witness_NarrowerAccessesSeeTheBytesOfAWord :
    3 < 4 ∧ 2 < 3 ∧ (State.reset.mem.storeWord 0xFFE 0xAABBCCDD).loadByte (0xFFE + BitVec.ofNat 32 3) = 0xAA
    ∧ (State.reset.mem.storeWord 0xFFE 0xAABBCCDD).loadHalf (0xFFE + BitVec.ofNat 32 2) = 0xAABB := by decide

/-- A step that writes four bytes, one that writes a register, the words of SB and SH beside a byte and a
register they leave alone, and a step that runs no instruction for each of its two reasons. -/
theorem witness_StepWritesAtMostOneRegisterAndFourBytes :
    decode 0x00208023 = .ok (.sb 1 2 0) ∧ decode 0x00209023 = .ok (.sh 1 2 0)
    ∧ decode 0x0020A023 = .ok (.sw 1 2 0) ∧ (Instr.sw 1 2 0).dest ≠ some 31
    ∧ (machine 10 0x40 [(1, 0xFFF), (2, 0xAABBCCDD)] [] 0x00209023).storedBytes (.sh 1 2 0) = [0xFFF, 0]
    ∧ 1 ∉ (machine 10 0x40 [(1, 0xFFF), (2, 0xAABBCCDD)] [] 0x00209023).storedBytes (.sh 1 2 0)
    ∧ (Instr.addi 1 0 1).isStore = false ∧ decode 0x00100093 = .ok (.addi 1 0 1)
    ∧ haltSeen (machine 10 0x22 [] [] 0x0020A023) = some (0x22, .alignmentFault 0x22)
    ∧ haltSeen (machine 10 0xC [] [] 0xFFFFFFFF) = some (0xC, .decodeError 0x7F 7 0x7F)
    ∧ bytesSeen (machine 0 0 [(1, 2), (2, 0x01020304)] [] 0x0020A023) [0, 1, 2, 3] = some (0, [2, 1, 4, 3])
    ∧ regSeen (machine 0 0 [] [] 0x00100093) 1 = some (0, 1) := by decide

/-- Two ways to one memory: listing a byte and taking it out again. -/
theorem witness_CanonicalMemoriesAreDeterminedByTheirBytes :
    State.reset.mem.wf ∧ ((State.reset.mem.set 4095 7).set 4095 0).wf
    ∧ State.reset.mem.capExp = ((State.reset.mem.set 4095 7).set 4095 0).capExp
    ∧ State.reset.mem = (State.reset.mem.set 4095 7).set 4095 0 := by decide

/-- The five forms of a destination 0: an ALU word, a load, an upper immediate, and the two jumps. -/
theorem witness_RegisterZeroIsHardwired :
    (31#5 ≠ 0#5) ∧ (0#5 ≠ 31#5) ∧ (Instr.add 0 1 2).dest = some 0#5 ∧ (Instr.add 0 1 2).isTransfer = false
    ∧ (Instr.lw 0 1 0).dest = some 0#5 ∧ (Instr.lui 0 0x12345).dest = some 0#5
    ∧ (Instr.jal 0 0x1FFFFE).dest = some 0#5 ∧ (Instr.jalr 0 1 0x800 7).dest = some 0#5
    ∧ (nextOf (exec (.jal 31 0x1FFFFE) State.reset)).isSome = true
    ∧ (nextOf (exec (.jalr 31 1 0x800 7) State.reset)).isSome = true := by decide

/-- Two states that differ in a register the instruction does not read. -/
theorem witness_OnlySourcesAreReadAndOnlyTheDestinationWritten :
    (∀ r ∈ (Instr.sub 3 1 2).sources,
      (machine 10 0 [(1, 5), (2, 7), (3, 9)] [] 0).readReg r = (machine 10 0 [(1, 5), (2, 7)] [] 0).readReg r)
    ∧ (machine 10 0 [(1, 5), (2, 7), (3, 9)] [] 0).pc = (machine 10 0 [(1, 5), (2, 7)] [] 0).pc
    ∧ (machine 10 0 [(1, 5), (2, 7), (3, 9)] [] 0).run = (machine 10 0 [(1, 5), (2, 7)] [] 0).run
    ∧ (machine 10 0 [(1, 5), (2, 7), (3, 9)] [] 0).mem = (machine 10 0 [(1, 5), (2, 7)] [] 0).mem := by decide

/-- Half-words on each side of the sign (0x7FFF and 0x8000), the second across the end of memory. -/
theorem witness_LoadHalfExtends :
    (let s := machine 10 0x40 [(1, 0x100)] [(0x100, 0xFF), (0x101, 0x7F)] 0
     0x7FFF = s.byteNum (s.loadAddr 1 0) 0 + s.byteNum (s.loadAddr 1 0) 1 * 2 ^ 8)
    ∧ (let s := machine 10 0x40 [(1, 0x1000)] [(0xFFF, 0x00), (0, 0x80)] 0
       0x8000 = s.byteNum (s.loadAddr 1 0xFFF) 0 + s.byteNum (s.loadAddr 1 0xFFF) 1 * 2 ^ 8) := by decide

/-- The next instruction, and its alias at 0 after the last word of memory. -/
theorem witness_StoreIsSeenByTheNextFetch :
    (let s := machine 10 0x40 [(1, 0x40), (2, 0x73)] [] 0
     (s.storeAddr 1 4).toNat % s.mem.cap = (s.pc.toNat + 4) % s.mem.cap)
    ∧ (let s := machine 10 0xFFC [(2, 0x73)] [] 0
       (s.storeAddr 0 0).toNat % s.mem.cap = (s.pc.toNat + 4) % s.mem.cap) := by decide

theorem witness_OnlyStoresChangeMemory :
    bytesSeen (machine 10 0 [(1, 0xFFF), (2, 0xEE)] [] 0x00208023) [0xFFF] = some (4, [0xEE])
    ∧ (machine 10 0 [(1, 0xFFF), (2, 0xEE)] [] 0x00208023).mem.get 0xFFF = 0 := by decide

/-- The branch conditions met and not met, at the values where signed and unsigned order part. -/
theorem witness_BranchConditions :
    (let s := machine 10 0x40 [(1, 0xFFFFFFFF), (2, 0), (3, 0)] [] 0
     s.readReg 2 = s.readReg 3 ∧ s.readReg 1 ≠ s.readReg 2
     ∧ (s.readReg 1).toInt < (s.readReg 2).toInt ∧ ¬ (s.readReg 1).toInt ≥ (s.readReg 2).toInt
     ∧ (s.readReg 2).toInt ≥ (s.readReg 3).toInt ∧ ¬ (s.readReg 2).toInt < (s.readReg 3).toInt
     ∧ (s.readReg 2).toNat < (s.readReg 1).toNat ∧ ¬ (s.readReg 2).toNat ≥ (s.readReg 1).toNat
     ∧ (s.readReg 2).toNat ≥ (s.readReg 3).toNat ∧ ¬ (s.readReg 1).toNat < (s.readReg 2).toNat) := by decide

/-- Before the last word of memory, at it, at the top of the address space, and SYSTEM. -/
theorem witness_SequentialAdvanceStaysAligned :
    (Instr.fence 0).isTransfer = false ∧ (Instr.fence 0).isSystem = false
    ∧ (Instr.system 0).isTransfer = false ∧ (Instr.system 0).isSystem = true
    ∧ ((machine 10 0xFF8 [] [] 0).npc = 0xFFC) ∧ ((machine 10 0xFFC [] [] 0).npc = 0)
    ∧ ((machine 10 0xFFFFFFFC [] [] 0).npc = 0) ∧ ((machine 0 0 [] [] 0).npc = 0) := by decide

/-- V45-14, V46-4 and V46-13: a branch, JAL and JALR to a target that is 2 modulo 4, left Running. -/
theorem witness_MisalignedTargetHaltsAtTheNextFetch :
    regSeen (machine 10 0x40 [] [] 0x7E000FE3) 0 = some (0x103E, 0)
    ∧ regSeen (machine 10 0x20 [] [] 0x002000EF) 1 = some (0x22, 0x24)
    ∧ regSeen (machine 10 0x20 [(5, 0x103)] [] 0x000280E7) 1 = some (0x102, 0x24) := by decide

theorem witness_RunsMayBeSplit :
    State.reset.run = .running
    ∧ step State.reset = .next (State.reset.raise (.decodeError 0 0 0)) := ⟨rfl, rfl⟩

/-- A Halted state, a Running one whose next state is Halted, and one that jumps to itself at the last word of
memory, Running after the step and with its program counter where it was. -/
theorem witness_RunToHaltRepeatsTheStep :
    (State.reset.raise (.systemCall 0x73)).run = .halted (.systemCall 0x73)
    ∧ State.reset.run = .running
    ∧ step State.reset = .next (State.reset.raise (.decodeError 0 0 0))
    ∧ RunsToHalt State.reset (State.reset.raise (.decodeError 0 0 0))
    ∧ (let s := machine 10 0xFFC [] [] 0x0000006F
       s.run = .running ∧ s.pc.toNat % 4 = 0 ∧ s.mem.loadWord s.pc = 0x0000006F#32
         ∧ regSeen s 0 = some (0xFFC, 0)) :=
  ⟨rfl, rfl, rfl, .again rfl (.ended rfl), by decide⟩

/-- P1b, from its last instruction on: ADD at 8, then zeroed memory at 12 (95_test_vectors.md section 5). -/
theorem test_run_to_halt : ∃ t, RunsToHalt (machine 10 8 [(1, 5), (2, 7)] [] 0x002081B3) t
    ∧ t.readReg 3 = 12 ∧ t.pc = 12 ∧ t.run = .halted (.decodeError 0 0 0) :=
  ⟨_, .again rfl (.again rfl (.ended rfl)), by decide⟩

end Sys2Proof.Tests
end

section
/-! PROOFS. The architectural state and its reset value (10_state.md R21, R37): what a register reads after
reset and after a write, what an instruction with destination `x0` does, and what an image leaves in memory. -/

namespace Sys2Proof.Machine

/-! ## Register 0 (10_state.md R21) -/

@[simp] theorem State.readReg_zero (s : State) : s.readReg 0#5 = 0#32 := if_pos rfl

@[simp] theorem State.writeReg_zero (s : State) (v : Word) : s.writeReg 0#5 v = s := if_pos rfl

@[simp] theorem State.writeBack_zero (s : State) (v : Word) : s.writeBack 0#5 v = s.advance := by
  simp [State.writeBack, State.advance]

@[simp] theorem State.linkTo_zero (s : State) (target : Word) :
    s.linkTo 0#5 target = { s with pc := target } := by simp [State.linkTo]

/-! ## Reading after a write -/

theorem State.readReg_writeReg_self (s : State) {r : RegIdx} (v : Word) (hr : r ≠ 0#5) :
    (s.writeReg r v).readReg r = v := by simp [State.readReg_writeReg, hr]

theorem State.readReg_writeReg_ne (s : State) {r q : RegIdx} (v : Word) (hq : q ≠ r) :
    (s.writeReg r v).readReg q = s.readReg q := by simp [State.readReg_writeReg, hq]

/-! ## Instructions with destination `x0` -/

/-- The register write being dropped, what is left of such an instruction is its new program counter. -/
theorem exec_of_dest_zero {i : Instr} (s : State) (hdest : i.dest = some 0#5) :
    ∃ p, exec i s = .next { s with pc := p } ∧ (i.isTransfer = false → p = s.npc) := by
  rcases exec_cases i s with ⟨rd, v, hrd, -, -, -, hexec⟩ | ⟨_, _, _, -, hnone, -⟩ | ⟨_, _, hnone, -⟩ |
    ⟨rd, off, rfl, hexec⟩ | ⟨rd, rs1, imm, ignored, rfl, hexec⟩ | ⟨_, rfl, -⟩ | ⟨_, rfl, -⟩
  · obtain rfl : rd = 0#5 := Option.some.inj (hrd.symm.trans hdest)
    exact ⟨s.npc, by rw [hexec, State.writeBack_zero]; rfl, fun _ => rfl⟩
  · cases hnone.symm.trans hdest
  · cases hnone.symm.trans hdest
  · obtain rfl : rd = 0#5 := Option.some.inj hdest
    exact ⟨s.jalTarget off, by rw [hexec, State.linkTo_zero], nofun⟩
  · obtain rfl : rd = 0#5 := Option.some.inj hdest
    exact ⟨s.jalrTarget rs1 imm, by rw [hexec, State.linkTo_zero], nofun⟩
  · cases hdest
  · cases hdest

/-- Where JAL goes does not depend on its destination (46_jump.md R190). -/
theorem exec_jal_pc {s t : State} {rd : RegIdx} {off : BitVec 21} (h : exec (.jal rd off) s = .next t) :
    t.pc = s.jalTarget off := by
  cases h; rfl

/-- Where JALR goes does not depend on its destination (46_jump.md R191). -/
theorem exec_jalr_pc {s t : State} {rd rs1 : RegIdx} {imm : BitVec 12} {ignored : BitVec 3}
    (h : exec (.jalr rd rs1 imm ignored) s = .next t) : t.pc = s.jalrTarget rs1 imm := by
  cases h; rfl

/-- Settles O31: how registers read after a write, and the one thing left to an instruction with destination
`x0`, its program counter. -/
theorem registerZeroIsHardwired : Obligations.RegisterZeroIsHardwired := by
  intro s r v
  refine ⟨s.readReg_zero, s.writeReg_zero v, s.readReg_writeReg_self v,
    fun q hq => s.readReg_writeReg_ne v hq, fun i hdest => ?_⟩
  obtain ⟨p, hexec, hnpc⟩ := exec_of_dest_zero s hdest
  refine ⟨_, hexec, fun _ => rfl, ⟨rfl, fun _ => rfl⟩, rfl, fun htransfer => ?_, ?_, ?_⟩
  · rw [hnpc htransfer]
    exact s.npc_toNat
  · rintro off rd u rfl hu
    exact (exec_jal_pc hexec).trans (exec_jal_pc hu).symm
  · rintro rs1 imm ignored rd u rfl hu
    exact (exec_jalr_pc hexec).trans (exec_jalr_pc hu).symm

/-! ## Reset (10_state.md R37) -/

@[simp] theorem State.reset_readReg (r : RegIdx) : State.reset.readReg r = 0#32 := by
  simp [State.readReg, State.reset, State.resetRegs]

theorem boot_of_length_le {c : Fin 31} {image : List Byte} (h : image.length ≤ 2 ^ (c.val + 2)) :
    boot c image = .next { State.reset with mem := { capExp := c, cells := imageCells 0 image } } :=
  if_pos h

/-- Memory after the load of an image is the image, and 0 after it (70_reset_and_hazards.md R252). -/
theorem Memory.get_image (c : Fin 31) (image : List Byte) (k : Nat) :
    ({ capExp := c, cells := imageCells 0 image } : Memory).get k = image.getD k 0#8 := by
  simp [Memory.get, cellGet_imageCells]

/-- Settles O19: the state that reset creates, component by component. -/
theorem bootLoadsTheImage : Obligations.BootLoadsTheImage := by
  intro c image hfits
  refine ⟨_, boot_of_length_le hfits, rfl, State.reset_readReg, rfl, rfl, fun k hk => ?_, fun k hk => ?_⟩
  · exact (Memory.get_image c image k).trans (List.getD_eq_getElem image 0#8 hk)
  · exact (Memory.get_image c image k).trans (List.getD_eq_default image 0#8 hk)

end Sys2Proof.Machine
end

section
/-! PROOFS. Memory accesses (20_memory.md R41 to R47): which byte of the array each byte of an access is, what a
read amounts to as a number, and what a read returns after a store. -/

namespace Sys2Proof.Machine

/-! ## Byte addresses (20_memory.md R41) -/

/-- Addresses with one residue are aliases: every byte read through them agrees. -/
theorem Memory.byteAt_congr (m : Memory) {a b : Word} (h : b.toNat % m.cap = a.toNat % m.cap) (i : Nat) :
    m.byteAt b i = m.byteAt a i := congrArg m.get (Memory.index_congr h i)

/-- Wrapping to 32 bits first loses nothing: CAP divides `2 ^ 32`. -/
theorem Memory.wrap_mod_cap (m : Memory) (n : Nat) : n % 2 ^ 32 % m.cap = n % m.cap :=
  Nat.mod_mod_of_dvd n m.cap_dvd

theorem Memory.add_mul_cap_mod_cap (m : Memory) (a : Word) (k : Nat) :
    (a + BitVec.ofNat 32 (k * m.cap)).toNat % m.cap = a.toNat % m.cap := by
  rw [BitVec.toNat_add, BitVec.toNat_ofNat, Nat.add_mod_mod, m.wrap_mod_cap, Nat.add_mul_mod_self_right]

/-- Settles O26: the reduction is the definition of a byte's index, and neither the 32-bit wrap nor a multiple of
the capacity changes the remainder. -/
theorem addressesReduceModuloCapacity : Obligations.AddressesReduceModuloCapacity :=
  fun m a i k => ⟨rfl, congrArg m.get (m.wrap_mod_cap (a.toNat + i)).symm,
    m.byteAt_congr (m.add_mul_cap_mod_cap a k) i⟩

/-! ## Reads as numbers (20_memory.md R42) -/

theorem Memory.loadHalf_toNat (m : Memory) (a : Word) :
    (m.loadHalf a).toNat = (m.byteAt a 0).toNat + (m.byteAt a 1).toNat * 2 ^ 8 := by
  rw [Memory.loadHalf, toNat_append_add, Nat.add_comm]

theorem Memory.loadWord_toNat (m : Memory) (a : Word) :
    (m.loadWord a).toNat = (m.byteAt a 0).toNat + (m.byteAt a 1).toNat * 2 ^ 8
      + (m.byteAt a 2).toNat * 2 ^ 16 + (m.byteAt a 3).toNat * 2 ^ 24 := by
  simp only [Memory.loadWord, toNat_append_add]
  omega

/-- Settles O27: the reads as sums of the bytes of the access, each byte being that of the array at its index. -/
theorem readsAreLittleEndian : Obligations.ReadsAreLittleEndian :=
  fun m a => ⟨rfl, m.loadHalf_toNat a, m.loadWord_toNat a⟩

/-! ## Reads after a store (20_memory.md R43, R47) -/

theorem Memory.loadByte_storeByte (m : Memory) {a b : Word} (w : Word)
    (h : b.toNat % m.cap = a.toNat % m.cap) :
    ((m.storeByte a w).loadByte b).toNat = w.toNat % 2 ^ 8 := by
  rw [Memory.loadByte, Memory.storeByte, m.byteAt_store w (by decide) (by decide) h, byteOf_toNat]
  omega

theorem Memory.loadHalf_storeHalf (m : Memory) {a b : Word} (w : Word)
    (h : b.toNat % m.cap = a.toNat % m.cap) :
    ((m.storeHalf a w).loadHalf b).toNat = w.toNat % 2 ^ 16 := by
  have hbyte (i : Nat) (hi : i < 2) := m.byteAt_store w (n := 2) (by decide) hi h
  rw [Memory.loadHalf_toNat, Memory.storeHalf, hbyte 0 (by decide), hbyte 1 (by decide)]
  simp only [byteOf_toNat]
  omega

theorem Memory.loadWord_storeWord (m : Memory) {a b : Word} (w : Word)
    (h : b.toNat % m.cap = a.toNat % m.cap) : (m.storeWord a w).loadWord b = w := by
  have hbyte (i : Nat) (hi : i < 4) := m.byteAt_store w (n := 4) (by decide) hi h
  apply BitVec.eq_of_toNat_eq
  rw [Memory.loadWord_toNat, Memory.storeWord, hbyte 0 (by decide), hbyte 1 (by decide),
    hbyte 2 (by decide), hbyte 3 (by decide)]
  simp only [byteOf_toNat]
  omega

/-- Settles O28: every byte of the access is read back, and the bytes make up the value again. -/
theorem storeThenLoadReturnsTheValue : Obligations.StoreThenLoadReturnsTheValue :=
  fun m _ _ w h => ⟨m.loadWord_storeWord w h, m.loadHalf_storeHalf w h, m.loadByte_storeByte w h⟩

end Sys2Proof.Machine
end

section
/-! PROOFS. The fields and immediates of an instruction word (30_encoding.md R71 to R78): where each stands in
the word, what it is worth as a signed number, and which offsets are even. -/

namespace Sys2Proof

/-! ## Signed fields -/

/-- The two's-complement value of a field of at least one bit, its greatest bit being worth `2 ^ k`. -/
theorem toInt_eq_signed {k : Nat} (f : BitVec (k + 1)) :
    f.toInt = if f.toNat < 2 ^ k then (f.toNat : Int) else (f.toNat : Int) - 2 ^ (k + 1) := by
  have hhalf : 2 * f.toNat < 2 ^ (k + 1) ↔ f.toNat < 2 ^ k := by omega
  simp only [BitVec.toInt_eq_toNat_cond, hhalf, Nat.cast_pow, Nat.cast_ofNat]

/-- Sign extension keeps the low bits. -/
theorem toNat_signExtend_mod {k n v : Nat} (f : BitVec n) (hk : k ≤ n) (hn : n ≤ v) :
    (f.signExtend v).toNat % 2 ^ k = f.toNat % 2 ^ k := by
  refine Nat.eq_of_testBit_eq fun i => ?_
  rw [Nat.testBit_mod_two_pow, Nat.testBit_mod_two_pow]
  by_cases hi : i < k
  · rw [BitVec.testBit_toNat, BitVec.testBit_toNat, BitVec.getLsbD_signExtend, if_pos (by omega),
      decide_eq_true (show i < v by omega), Bool.true_and]
  · simp [hi]

/-! ## Even offsets (30_encoding.md R75, R77) -/

theorem toInt_even {k : Nat} (f : BitVec (k + 1)) (heven : f.toNat % 2 = 0) : f.toInt % 2 = 0 := by
  rw [toInt_eq_signed, pow_succ]
  split <;> omega

/-- The greatest even number of a signed field is one less than its greatest number. -/
theorem toInt_range_of_even {k : Nat} (f : BitVec (k + 2)) (heven : f.toNat % 2 = 0) :
    -2 ^ (k + 1) ≤ f.toInt ∧ f.toInt ≤ 2 ^ (k + 1) - 2 := by
  have hlow : -2 ^ (k + 1) ≤ f.toInt := f.le_toInt
  have hhigh : f.toInt < 2 ^ (k + 1) := f.toInt_lt
  have hfeven := toInt_even f heven
  rw [pow_succ] at *
  omega

theorem immFieldB_even (w : Word) : (immFieldB w).toNat % 2 = 0 := by
  rw [immFieldB_toNat]
  omega

theorem immFieldJ_even (w : Word) : (immFieldJ w).toNat % 2 = 0 := by
  rw [immFieldJ_toNat]
  omega

/-- An even offset field, sign-extended: its value, its lowest bit and its range. -/
theorem signExtend_evenOffset {k v : Nat} (f : BitVec (k + 2)) (hv : k + 2 ≤ v) (heven : f.toNat % 2 = 0) :
    ((f.signExtend v).toInt =
      if f.toNat < 2 ^ (k + 1) then (f.toNat : Int) else (f.toNat : Int) - 2 ^ (k + 2))
    ∧ (f.signExtend v).toNat % 2 = 0
    ∧ -2 ^ (k + 1) ≤ (f.signExtend v).toInt ∧ (f.signExtend v).toInt ≤ 2 ^ (k + 1) - 2 := by
  have hlowBit : (f.signExtend v).toNat % 2 ^ 1 = f.toNat % 2 ^ 1 := toNat_signExtend_mod f (by omega) hv
  rw [BitVec.toInt_signExtend_of_le hv]
  exact ⟨toInt_eq_signed f, hlowBit.trans heven, toInt_range_of_even f heven⟩

/-! ## The upper immediate (30_encoding.md R76) -/

/-- The mask 0xFFFFF000 keeps the immediate of a U-type word. -/
theorem encodeU_and_mask (imm : BitVec 20) (rd : RegIdx) (op : BitVec 7) :
    encodeU imm rd op &&& 0xFFFFF000#32 = immU imm := by
  show (imm ++ rd ++ op : BitVec (20 + 5 + 7)) &&& (BitVec.allOnes 20 ++ 0#5 ++ 0#7 : BitVec (20 + 5 + 7)) = _
  simp only [BitVec.and_append, BitVec.and_allOnes, BitVec.and_zero]
  exact BitVec.append_assoc

theorem and_maskUpper (w : Word) : w &&& 0xFFFFF000#32 = immU (immFieldU w) := by
  rw [← encodeU_and_mask (immFieldU w) (rdOf w) (opcodeOf w), encodeU_fields]

/-! ## The shift amount (30_encoding.md R78) -/

/-- The shift amount is the low five bits of the I-type field. -/
theorem immI_mod_shamt (w : Word) : (immI (immFieldI w)).toNat % 2 ^ 5 = (rs2Of w).toNat := by
  rw [immI, toNat_signExtend_mod _ (by decide) (by decide), immFieldI_toNat, rs2Of_toNat]

/-! ## The statements -/

/-- Settles O8: sign extension keeps the value of each 12-bit field, and each field is a sum of pieces of the word. -/
theorem signedTwelveBitImmediates : Obligations.SignedTwelveBitImmediates := by
  intro w
  constructor
  · have h := (immI_toInt (immFieldI w)).trans (toInt_eq_signed _)
    rw [immFieldI_toNat] at h
    exact_mod_cast h
  · rintro n rfl
    rw [← immFieldS_toNat]
    exact (immS_toInt _).trans (toInt_eq_signed _)

/-- Settles O9: the four pieces make up an even 13-bit field, and sign extension keeps its value. -/
theorem branchImmediateScatter : Obligations.BranchImmediateScatter := by
  intro w n hn
  rw [← immFieldB_toNat] at hn
  subst hn
  exact signExtend_evenOffset (immFieldB w) (by decide) (immFieldB_even w)

/-- Settles O10: the four pieces make up an even 21-bit field, and sign extension keeps its value. -/
theorem jumpImmediateScatter : Obligations.JumpImmediateScatter := by
  intro w n hn
  rw [← immFieldJ_toNat] at hn
  subst hn
  exact signExtend_evenOffset (immFieldJ w) (by decide) (immFieldJ_even w)

/-- Settles O11: both readings of the upper immediate, and the shift amount as a field and as low bits of `immI`. -/
theorem upperImmediateAndShiftAmount : Obligations.UpperImmediateAndShiftAmount := by
  intro w
  refine ⟨?_, (and_maskUpper w).symm, rs2Of_toNat w, (immI_mod_shamt w).symm⟩
  exact (immU_toNat _).trans (congrArg (· * 2 ^ 12) (immFieldU_toNat w))

/-- Settles O7: the decoder returns each field as the numbers of its bits. -/
theorem decoderFieldPositions : Obligations.DecoderFieldPositions :=
  fun w => ⟨opcodeOf_toNat w, rdOf_toNat w, funct3Of_toNat w, rs1Of_toNat w, rs2Of_toNat w, funct7Of_toNat w⟩

end Sys2Proof
end

section
/-! PROOFS. The R-type ALU group (41_op_alu.md R120 to R130): the effect the ten instructions share, and the shifts
as products and quotients by a power of two. -/

namespace Sys2Proof.Machine

/-! ## One register result and nothing else (41_op_alu.md R120) -/

theorem State.writeBack_regResult (s : State) (rd : RegIdx) (v : Word) :
    RegResult s (s.writeBack rd v) rd v := by
  have hmem : SameMem s (s.writeBack rd v) := by simp [SameMem]
  exact ⟨fun r => s.writeBack_readReg rd r v, s.npc_toNat, s.writeBack_run rd v, hmem⟩

/-- An instruction that ends in a write-back has its one register result, with whatever is known of the value. -/
theorem exec_regResult {i : Instr} {s : State} {rd : RegIdx} {v : Word} {P : Word → Prop}
    (hexec : exec i s = .next (s.writeBack rd v)) (hv : P v) :
    ∃ t v, exec i s = .next t ∧ RegResult s t rd v ∧ P v :=
  ⟨_, v, hexec, s.writeBack_regResult rd v, hv⟩

/-! ## The results as numbers -/

/-- A difference of words wraps: a borrow is not detected (R122). -/
theorem toNat_sub_wraps (a b : Word) : ((a - b).toNat : Int) = (a.toNat - b.toNat : Int) % 2 ^ 32 := by
  rw [BitVec.toNat_sub]
  omega

theorem shiftLeft_toNat (a : Word) (n : BitVec 5) :
    (shiftLeft a n).toNat = a.toNat * 2 ^ n.toNat % 2 ^ 32 := by
  rw [shiftLeft, BitVec.toNat_shiftLeft, Nat.shiftLeft_eq]

theorem shiftRightU_toNat (a : Word) (n : BitVec 5) : (shiftRightU a n).toNat = a.toNat / 2 ^ n.toNat := by
  rw [shiftRightU, BitVec.toNat_ushiftRight, Nat.shiftRight_eq_div_pow]

/-- An arithmetic shift rounds towards minus infinity (R128). -/
theorem shiftRightS_toInt (a : Word) (n : BitVec 5) : (shiftRightS a n).toInt = a.toInt / 2 ^ n.toNat := by
  rw [shiftRightS, BitVec.toInt_sshiftRight, Int.shiftRight_eq_div_pow]
  norm_cast

/-- A comparison's word as a number, given what the comparison decides (R124). -/
theorem boolWord_toNat_of_iff {b : Bool} {p : Prop} [Decidable p] (h : b = true ↔ p) :
    (boolWord b).toNat = if p then 1 else 0 := by
  rw [boolWord_toNat]
  exact if_congr h rfl rfl

/-! ## The statements -/

/-- Settles O33: a sum of words and a difference of words are reduced modulo `2 ^ 32`. -/
theorem addAndSubWrap : Obligations.AddAndSubWrap := by
  intro s rd rs1 rs2
  exact ⟨exec_regResult rfl (BitVec.toNat_add _ _), exec_regResult rfl (toNat_sub_wraps _ _),
    Laws.SelectsRow.add rd rs1 rs2, Laws.SelectsRow.sub rd rs1 rs2⟩

/-- Settles O34: the amount is the low five bits of `x[rs2]`, and each shift is a product or a quotient by its
power of two. -/
theorem registerShifts : Obligations.RegisterShifts := by
  intro s rd rs1 rs2
  rw [← shiftAmount_toNat (s.readReg rs2)]
  exact ⟨exec_regResult rfl (shiftLeft_toNat _ _), exec_regResult rfl (shiftRightU_toNat _ _),
    exec_regResult rfl (shiftRightS_toInt _ _), Laws.SelectsRow.sll rd rs1 rs2,
    Laws.SelectsRow.srl rd rs1 rs2, Laws.SelectsRow.sra rd rs1 rs2⟩

/-- Settles O35: the comparison is that of the two's-complement numbers. -/
theorem setLessThanSigned : Obligations.SetLessThanSigned := by
  intro s rd rs1 rs2
  exact ⟨exec_regResult rfl (boolWord_toNat_of_iff (lessS_iff _ _)), Laws.SelectsRow.slt rd rs1 rs2⟩

/-- Settles O37: each operation acts on every bit by itself. -/
theorem registerBitwise : Obligations.RegisterBitwise := by
  intro s rd rs1 rs2
  exact ⟨exec_regResult rfl fun _ => BitVec.getLsbD_xor, exec_regResult rfl fun _ => BitVec.getLsbD_or,
    exec_regResult rfl fun _ => BitVec.getLsbD_and, Laws.SelectsRow.xor rd rs1 rs2,
    Laws.SelectsRow.or rd rs1 rs2, Laws.SelectsRow.and rd rs1 rs2⟩

end Sys2Proof.Machine
end

section
/-! PROOFS. The I-type ALU group (42_op_imm_alu.md R140 to R146): the twelve-bit immediate as a signed number and
bit by bit, and the five instructions that extend its sign. -/

namespace Sys2Proof.Machine

/-! ## The immediate operand -/

/-- Bit 11 of the field stands in every bit of the operand from 11 up (30_encoding.md R73). -/
theorem immI_getLsbD (f : BitVec 12) {i : Nat} (hi : i < 32) : (immI f).getLsbD i = f.getLsbD (min i 11) := by
  rw [immI, BitVec.getLsbD_signExtend, decide_eq_true hi, Bool.true_and]
  by_cases hfield : i < 12
  · rw [if_pos hfield, Nat.min_eq_left (by omega)]
  · rw [if_neg hfield, Nat.min_eq_right (by omega), BitVec.msb_eq_getLsbD_last]

theorem toNat_add_immI (a : Word) (f : BitVec 12) :
    ((a + immI f).toNat : Int) = (a.toNat + f.toInt) % 2 ^ 32 := by
  rw [toNat_add_signed, immI_toInt]

theorem lessS_immI_iff (a : Word) (f : BitVec 12) : lessS a (immI f) = true ↔ a.toInt < f.toInt := by
  rw [lessS_iff, immI_toInt]

/-! ## The statements -/

/-- Settles O38: sign extension keeps the immediate's value, and the sum is reduced modulo `2 ^ 32`. -/
theorem addImmediateWraps : Obligations.AddImmediateWraps := by
  intro s rd rs1 imm
  exact ⟨exec_regResult rfl (toNat_add_immI _ _), Laws.SelectsRow.addi rd rs1 imm⟩

/-- Settles O39: sign extension keeps the immediate's value, and the comparison is that of the two's-complement
numbers. -/
theorem setLessThanImmediateSigned : Obligations.SetLessThanImmediateSigned := by
  intro s rd rs1 imm
  exact ⟨exec_regResult rfl (boolWord_toNat_of_iff (lessS_immI_iff _ _)), Laws.SelectsRow.slti rd rs1 imm⟩

/-- Settles O41: each operation acts on every bit by itself, and the operand repeats bit 11 of the field. -/
theorem immediateBitwise : Obligations.ImmediateBitwise := by
  intro s rd rs1 imm
  refine ⟨exec_regResult rfl fun i hi => ?_, exec_regResult rfl fun i hi => ?_,
    exec_regResult rfl fun i hi => ?_, Laws.SelectsRow.xori rd rs1 imm, Laws.SelectsRow.ori rd rs1 imm,
    Laws.SelectsRow.andi rd rs1 imm⟩
  · rw [BitVec.getLsbD_xor, immI_getLsbD imm hi]
  · rw [BitVec.getLsbD_or, immI_getLsbD imm hi]
  · rw [BitVec.getLsbD_and, immI_getLsbD imm hi]

end Sys2Proof.Machine
end

section
/-! PROOFS. The LOAD group (43_load.md R160 to R165): the effective address as a number, and the sign-extended and
zero-extended value of what is read there. -/

namespace Sys2Proof.Machine

/-! ## The effective address and the extended value -/

/-- The effective address is reduced modulo `2 ^ 32` (R160). -/
theorem State.loadAddr_toNat (s : State) (rs1 : RegIdx) (imm : BitVec 12) :
    ((s.loadAddr rs1 imm).toNat : Int) = ((s.readReg rs1).toNat + imm.toInt) % 2 ^ 32 :=
  toNat_add_immI (s.readReg rs1) imm

theorem sext_toInt_signed {k : Nat} (v : BitVec (k + 1)) (hk : k + 1 ≤ 32) :
    (sext v).toInt = if v.toNat < 2 ^ k then (v.toNat : Int) else (v.toNat : Int) - 2 ^ (k + 1) :=
  (sext_toInt v hk).trans (toInt_eq_signed v)

/-! ## The statements -/

/-- Settles O43: the byte that is read is the one at the effective address modulo CAP, and each extension keeps its
value. -/
theorem loadByteExtends : Obligations.LoadByteExtends := by
  intro s rd rs1 imm
  exact ⟨s.loadAddr_toNat rs1 imm, exec_regResult rfl (sext_toInt_signed _ (by decide)),
    exec_regResult rfl (zext_toNat _ (by decide)), Laws.SelectsRow.lb rd rs1 imm,
    Laws.SelectsRow.lbu rd rs1 imm⟩

/-- Settles O44: the half-word that is read is worth the sum of its two bytes, and each extension keeps its value. -/
theorem loadHalfExtends : Obligations.LoadHalfExtends := by
  intro s rd rs1 imm h hh
  have hread : (s.mem.loadHalf (s.loadAddr rs1 imm)).toNat = h := (s.mem.loadHalf_toNat _).trans hh.symm
  subst hread
  exact ⟨s.loadAddr_toNat rs1 imm, exec_regResult rfl (sext_toInt_signed _ (by decide)),
    exec_regResult rfl (zext_toNat _ (by decide)), Laws.SelectsRow.lh rd rs1 imm,
    Laws.SelectsRow.lhu rd rs1 imm⟩

/-- Settles O45: the word that is read is worth the sum of its four bytes, and is not extended. -/
theorem loadWordReadsFourBytes : Obligations.LoadWordReadsFourBytes := by
  intro s rd rs1 imm
  exact ⟨s.loadAddr_toNat rs1 imm, exec_regResult rfl (s.mem.loadWord_toNat _),
    Laws.SelectsRow.lw rd rs1 imm⟩

end Sys2Proof.Machine
end

section
/-! PROOFS. The STORE group (44_store.md R170 to R173): the effective address as a number, and the effect the three
instructions share. -/

namespace Sys2Proof.Machine

/-! ## The effective address -/

/-- The effective address is reduced modulo `2 ^ 32` (R170). -/
theorem State.storeAddr_toNat (s : State) (rs1 : RegIdx) (imm : BitVec 12) :
    ((s.storeAddr rs1 imm).toNat : Int) = ((s.readReg rs1).toNat + imm.toInt) % 2 ^ 32 := by
  rw [State.storeAddr, toNat_add_signed, immS_toInt]

/-! ## The bytes of one access and nothing else (44_store.md R170) -/

/-- At most four bytes, and CAP is at least 4: the access names no index twice, so no byte of it is overwritten. -/
theorem State.storeAdvance_storeResult (s : State) (ea v : Word) {n : Nat} (hn : n ≤ 4) :
    StoreResult s (s.storeAdvance ea v n) ea v n := by
  have hwritten (i : Nat) (hi : i < n) :
      ((s.mem.store ea v n).get ((ea.toNat + i) % s.mem.cap)).toNat = v.toNat / 2 ^ (8 * i) % 2 ^ 8 :=
    (congrArg BitVec.toNat (s.mem.get_store_at ea v hn hi)).trans (byteOf_toNat v i)
  exact ⟨hwritten, fun _ hk => s.mem.get_store_other ea v hk, s.mem.store_cap ea v n,
    s.storeAdvance_readReg ea v n, s.storeAdvance_run ea v n, s.npc_toNat⟩

/-! ## The statements -/

/-- Settles O46: the three instructions are one store of 1, 2 and 4 bytes at the effective address. -/
theorem storesWriteTheirBytesOnly : Obligations.StoresWriteTheirBytesOnly := by
  intro s rs1 rs2 imm
  exact ⟨s.storeAddr_toNat rs1 imm,
    ⟨_, rfl, s.storeAdvance_storeResult _ _ (by decide)⟩,
    ⟨_, rfl, s.storeAdvance_storeResult _ _ (by decide)⟩,
    ⟨_, rfl, s.storeAdvance_storeResult _ _ (by decide)⟩,
    Laws.SelectsRow.sb rs1 rs2 imm, Laws.SelectsRow.sh rs1 rs2 imm, Laws.SelectsRow.sw rs1 rs2 imm⟩

end Sys2Proof.Machine
end

section
/-! PROOFS. The upper-immediate instructions (47_upper_imm.md R200, R201): the field as a multiple of `2 ^ 12`, by
itself and above the instruction's own address. -/

namespace Sys2Proof.Machine

/-- The sum wraps: a carry out of bit 31 is lost (R201). -/
theorem toNat_add_immU (a : Word) (f : BitVec 20) :
    (a + immU f).toNat = (a.toNat + f.toNat * 2 ^ 12) % 2 ^ 32 := by
  rw [BitVec.toNat_add, immU_toNat]

/-- Settles O56: LUI writes the upper immediate back, AUIPC its sum with the program counter as it is, not reduced
modulo CAP. -/
theorem upperImmediates : Obligations.UpperImmediates := by
  intro s rd imm
  exact ⟨exec_regResult rfl (immU_toNat imm), exec_regResult rfl (toNat_add_immU s.pc imm),
    Laws.SelectsRow.lui rd imm, Laws.SelectsRow.auipc rd imm⟩

end Sys2Proof.Machine
end

section
/-! PROOFS. Decoding and encoding (30_encoding.md R72, R80 to R91): the fields of an encoded word, what the
decoder's answer says about the word, and the rows of the opcode table. -/

namespace Sys2Proof

/-! ## The fields of an encoded word, format by format (R72)

S-type and B-type words are R-type words with the immediate where funct7 and rd stand, and a J-type word is a
U-type word with its immediate in another order. -/

@[simp] theorem fields_encodeR (f7 : BitVec 7) (rs2 rs1 : RegIdx) (f3 : BitVec 3) (rd : RegIdx) (op : BitVec 7) :
    opcodeOf (encodeR f7 rs2 rs1 f3 rd op) = op ∧ rdOf (encodeR f7 rs2 rs1 f3 rd op) = rd
    ∧ funct3Of (encodeR f7 rs2 rs1 f3 rd op) = f3 ∧ rs1Of (encodeR f7 rs2 rs1 f3 rd op) = rs1
    ∧ rs2Of (encodeR f7 rs2 rs1 f3 rd op) = rs2 ∧ funct7Of (encodeR f7 rs2 rs1 f3 rd op) = f7 := by
  simp only [← BitVec.toNat_inj, opcodeOf_toNat, rdOf_toNat, funct3Of_toNat, rs1Of_toNat, rs2Of_toNat,
    funct7Of_toNat, encodeR_toNat]
  omega

@[simp] theorem fields_encodeI (imm : BitVec 12) (rs1 : RegIdx) (f3 : BitVec 3) (rd : RegIdx) (op : BitVec 7) :
    opcodeOf (encodeI imm rs1 f3 rd op) = op ∧ rdOf (encodeI imm rs1 f3 rd op) = rd
    ∧ funct3Of (encodeI imm rs1 f3 rd op) = f3 ∧ rs1Of (encodeI imm rs1 f3 rd op) = rs1
    ∧ immFieldI (encodeI imm rs1 f3 rd op) = imm := by
  simp only [← BitVec.toNat_inj, opcodeOf_toNat, rdOf_toNat, funct3Of_toNat, rs1Of_toNat, immFieldI_toNat,
    encodeI_toNat]
  omega

@[simp] theorem fields_encodeU (imm : BitVec 20) (rd : RegIdx) (op : BitVec 7) :
    opcodeOf (encodeU imm rd op) = op ∧ rdOf (encodeU imm rd op) = rd
    ∧ immFieldU (encodeU imm rd op) = imm := by
  simp only [← BitVec.toNat_inj, opcodeOf_toNat, rdOf_toNat, immFieldU_toNat, encodeU_toNat]
  omega

@[simp] theorem fields_encodeRest (rest : BitVec 25) (op : BitVec 7) :
    opcodeOf (rest ++ op) = op ∧ restOf (rest ++ op) = rest := by
  simp only [← BitVec.toNat_inj, opcodeOf_toNat, restOf_toNat, encodeRest_toNat]
  omega

theorem encodeS_eq_encodeR (imm : BitVec 12) (rs2 rs1 : RegIdx) (f3 : BitVec 3) (op : BitVec 7) :
    encodeS imm rs2 rs1 f3 op
      = encodeR (imm.extractLsb' 5 7) rs2 rs1 f3 (imm.extractLsb' 0 5) op := rfl

theorem immFieldS_eq (w : Word) : immFieldS w = funct7Of w ++ rdOf w := rfl

theorem immFieldS_encodeS (imm : BitVec 12) (rs2 rs1 : RegIdx) (f3 : BitVec 3) (op : BitVec 7) :
    immFieldS (encodeS imm rs2 rs1 f3 op) = imm := by
  apply BitVec.eq_of_toNat_eq
  simp only [encodeS_eq_encodeR, immFieldS_eq, fields_encodeR, toNat_append_add, toNat_extract]
  omega

@[simp] theorem fields_encodeS (imm : BitVec 12) (rs2 rs1 : RegIdx) (f3 : BitVec 3) (op : BitVec 7) :
    opcodeOf (encodeS imm rs2 rs1 f3 op) = op ∧ funct3Of (encodeS imm rs2 rs1 f3 op) = f3
    ∧ rs1Of (encodeS imm rs2 rs1 f3 op) = rs1 ∧ rs2Of (encodeS imm rs2 rs1 f3 op) = rs2
    ∧ immFieldS (encodeS imm rs2 rs1 f3 op) = imm := by
  refine ⟨?_, ?_, ?_, ?_, immFieldS_encodeS imm rs2 rs1 f3 op⟩ <;> simp [encodeS_eq_encodeR]

theorem encodeB_eq_encodeR (off : BitVec 13) (rs2 rs1 : RegIdx) (f3 : BitVec 3) (op : BitVec 7) :
    encodeB off rs2 rs1 f3 op
      = encodeR (off.extractLsb' 12 1 ++ off.extractLsb' 5 6) rs2 rs1 f3
          (off.extractLsb' 1 4 ++ off.extractLsb' 11 1) op := by
  apply BitVec.eq_of_toNat_eq
  simp only [encodeB_toNat, encodeR_toNat, toNat_append_add, toNat_extract]
  omega

theorem immFieldB_toNat_of_fields (w : Word) :
    (immFieldB w).toNat = (funct7Of w).toNat / 2 ^ 6 * 2 ^ 12 + (rdOf w).toNat % 2 * 2 ^ 11
      + (funct7Of w).toNat % 2 ^ 6 * 2 ^ 5 + (rdOf w).toNat / 2 * 2 := by
  rw [immFieldB_toNat, funct7Of_toNat, rdOf_toNat]
  omega

/-- The pieces of an even branch offset (R75). -/
theorem even_piecesB {n : Nat} (heven : n % 2 = 0) :
    n = n / 2 ^ 12 * 2 ^ 12 + n / 2 ^ 11 % 2 * 2 ^ 11 + n / 2 ^ 5 % 2 ^ 6 * 2 ^ 5 + n / 2 % 2 ^ 4 * 2 := by
  have e0 := div_pow_cut n 0 1
  have e1 := div_pow_cut n 1 4
  have e5 := div_pow_cut n 5 6
  have e11 := div_pow_cut n 11 1
  simp only [Nat.reduceAdd, Nat.pow_zero, Nat.div_one, Nat.pow_one] at *
  omega

theorem immFieldB_encodeB {off : BitVec 13} (rs2 rs1 : RegIdx) (f3 : BitVec 3) (op : BitVec 7)
    (heven : evenOffset off = true) : immFieldB (encodeB off rs2 rs1 f3 op) = off := by
  have pieces : ∀ a b c d : Nat, b < 2 → c < 2 ^ 6 → d < 2 ^ 4 →
      (a * 2 ^ 6 + c) / 2 ^ 6 = a ∧ (a * 2 ^ 6 + c) % 2 ^ 6 = c ∧ (d * 2 + b) % 2 = b
      ∧ (d * 2 + b) / 2 = d := by omega
  obtain ⟨h12, h5, h11, h1⟩ := pieces (off.toNat / 2 ^ 12) _ _ _ (Nat.mod_lt (off.toNat / 2 ^ 11) (by decide))
    (Nat.mod_lt (off.toNat / 2 ^ 5) (by decide)) (Nat.mod_lt (off.toNat / 2) (by decide))
  have htop : off.toNat / 2 ^ 12 % 2 ^ 1 = off.toNat / 2 ^ 12 := by omega
  apply BitVec.eq_of_toNat_eq
  simp only [immFieldB_toNat_of_fields, encodeB_eq_encodeR, fields_encodeR, toNat_append_add, toNat_extract]
  rw [htop, Nat.pow_one, h12, h5, h11, h1]
  exact (even_piecesB ((evenOffset_iff off).1 heven)).symm

@[simp] theorem fields_encodeB (off : BitVec 13) (rs2 rs1 : RegIdx) (f3 : BitVec 3) (op : BitVec 7) :
    opcodeOf (encodeB off rs2 rs1 f3 op) = op ∧ funct3Of (encodeB off rs2 rs1 f3 op) = f3
    ∧ rs1Of (encodeB off rs2 rs1 f3 op) = rs1 ∧ rs2Of (encodeB off rs2 rs1 f3 op) = rs2 := by
  simp [encodeB_eq_encodeR]

theorem encodeJ_eq_encodeU (off : BitVec 21) (rd : RegIdx) (op : BitVec 7) :
    encodeJ off rd op = encodeU (off.extractLsb' 20 1 ++ off.extractLsb' 1 10 ++ off.extractLsb' 11 1 ++
      off.extractLsb' 12 8) rd op := rfl

@[simp] theorem fields_encodeJ (off : BitVec 21) (rd : RegIdx) (op : BitVec 7) :
    opcodeOf (encodeJ off rd op) = op ∧ rdOf (encodeJ off rd op) = rd := by
  simp [encodeJ_eq_encodeU]

theorem immFieldJ_toNat_of_fields (w : Word) :
    (immFieldJ w).toNat = (immFieldU w).toNat / 2 ^ 19 * 2 ^ 20 + (immFieldU w).toNat % 2 ^ 8 * 2 ^ 12 +
      (immFieldU w).toNat / 2 ^ 8 % 2 * 2 ^ 11 + (immFieldU w).toNat / 2 ^ 9 % 2 ^ 10 * 2 := by
  rw [immFieldJ_toNat, immFieldU_toNat]
  omega

/-- The pieces of an even JAL offset (R77). -/
theorem even_piecesJ {n : Nat} (heven : n % 2 = 0) :
    n = n / 2 ^ 20 * 2 ^ 20 + n / 2 ^ 12 % 2 ^ 8 * 2 ^ 12 + n / 2 ^ 11 % 2 * 2 ^ 11 + n / 2 % 2 ^ 10 * 2 := by
  have e0 := div_pow_cut n 0 1
  have e1 := div_pow_cut n 1 10
  have e11 := div_pow_cut n 11 1
  have e12 := div_pow_cut n 12 8
  simp only [Nat.reduceAdd, Nat.pow_zero, Nat.div_one, Nat.pow_one] at *
  omega

theorem immFieldJ_encodeJ {off : BitVec 21} (rd : RegIdx) (op : BitVec 7) (heven : evenOffset off = true) :
    immFieldJ (encodeJ off rd op) = off := by
  have pieces : ∀ a b c d n : Nat, b < 2 ^ 8 → c < 2 → d < 2 ^ 10 →
      n = ((a * 2 ^ 10 + d) * 2 + c) * 2 ^ 8 + b →
      n / 2 ^ 19 = a ∧ n % 2 ^ 8 = b ∧ n / 2 ^ 8 % 2 = c ∧ n / 2 ^ 9 % 2 ^ 10 = d := by omega
  obtain ⟨h20, h12, h11, h1⟩ := pieces (off.toNat / 2 ^ 20) _ _ _ _
    (Nat.mod_lt (off.toNat / 2 ^ 12) (by decide)) (Nat.mod_lt (off.toNat / 2 ^ 11) (by decide))
    (Nat.mod_lt (off.toNat / 2) (by decide)) rfl
  have htop : off.toNat / 2 ^ 20 % 2 ^ 1 = off.toNat / 2 ^ 20 := by omega
  apply BitVec.eq_of_toNat_eq
  simp only [immFieldJ_toNat_of_fields, encodeJ_eq_encodeU, fields_encodeU, toNat_append_add, toNat_extract]
  rw [htop, Nat.pow_one, h20, h12, h11, h1]
  exact (even_piecesJ ((evenOffset_iff off).1 heven)).symm

/-! ## Decoding an encoded word -/

theorem decode_encode {i : Instr} (hwf : i.wellFormed = true) : decode (encode i) = .ok i := by
  cases i
  case add | sub | sll | slt | sltu | xor | srl | sra | or | and => simp [encode, decode, dispatchOp]
  case addi | slti | sltiu | xori | ori | andi | slli | srli | srai => simp [encode, decode, dispatchOpImm]
  case lb | lh | lw | lbu | lhu => simp [encode, decode, dispatchLoad]
  case sb | sh | sw => simp [encode, decode, dispatchStore]
  case beq | bne | blt | bge | bltu | bgeu =>
    simp [encode, decode, dispatchBranch, immFieldB_encodeB _ _ _ _ hwf]
  case jal => simp [encode, decode, immFieldJ_encodeJ _ _ hwf]
  case jalr | lui | auipc | fence | system => simp [encode, decode]

/-- Settles O3: the encoder puts every field where the decoder reads it. -/
theorem decodeOfEncodeIsTheInstruction : Obligations.DecodeOfEncodeIsTheInstruction :=
  fun _ hwf => decode_encode hwf

end Sys2Proof
end

section
/-! PROOFS. What the decoder's answer says about the word (30_encoding.md R79 to R91): the instruction and its
operands, the seven cases of words with no mapping, and the row of the opcode table. -/

namespace Sys2Proof

/-! ## The words with no mapping, by opcode (R87) -/

theorem opNum_eq (w : Word) : opNum w = (opcodeOf w).toNat := (opcodeOf_toNat w).symm
theorem f3Num_eq (w : Word) : f3Num w = (funct3Of w).toNat := (funct3Of_toNat w).symm
theorem f7Num_eq (w : Word) : f7Num w = (funct7Of w).toNat := (funct7Of_toNat w).symm

theorem noMapping_of_op {w : Word} (hop : opcodeOf w = 0b0110011#7) :
    noMapping w = !([(0, 0), (0, 32), (1, 0), (2, 0), (3, 0), (4, 0), (5, 0), (5, 32), (6, 0), (7, 0)].contains
      ((funct3Of w).toNat, (funct7Of w).toNat)) := by
  simp [noMapping, opNum_eq, f3Num_eq, f7Num_eq, hop]

theorem noMapping_of_opImm {w : Word} (hop : opcodeOf w = 0b0010011#7) :
    noMapping w = ((funct3Of w == 1#3 && funct7Of w != 0#7)
      || (funct3Of w == 5#3 && funct7Of w != 0#7 && funct7Of w != 32#7)) := by
  rw [Bool.eq_iff_iff]
  simp [noMapping, opNum_eq, f3Num_eq, f7Num_eq, hop, ← BitVec.toNat_inj]

theorem noMapping_of_load {w : Word} (hop : opcodeOf w = 0b0000011#7) :
    noMapping w = [3, 6, 7].contains (funct3Of w).toNat := by
  simp [noMapping, opNum_eq, f3Num_eq, hop]

theorem noMapping_of_store {w : Word} (hop : opcodeOf w = 0b0100011#7) :
    noMapping w = [3, 4, 5, 6, 7].contains (funct3Of w).toNat := by
  simp [noMapping, opNum_eq, f3Num_eq, hop]

theorem noMapping_of_branch {w : Word} (hop : opcodeOf w = 0b1100011#7) :
    noMapping w = [2, 3].contains (funct3Of w).toNat := by
  simp [noMapping, opNum_eq, f3Num_eq, hop]

theorem noMapping_of_unknown {w : Word}
    (hop : [0x33, 0x13, 0x03, 0x23, 0x63, 0x6F, 0x67, 0x37, 0x17, 0x0F, 0x73].contains (opNum w) = false) :
    noMapping w = true := by
  simp only [noMapping, hop, Bool.not_false, Bool.true_or]

/-- The encoder gives no word of R87. -/
theorem noMapping_encode (i : Instr) : noMapping (encode i) = false := by
  cases i
  case add | sub | sll | slt | sltu | xor | srl | sra | or | and =>
    rw [noMapping_of_op] <;> simp [encode]
  case addi | slti | sltiu | xori | ori | andi | slli | srli | srai =>
    rw [noMapping_of_opImm] <;> simp [encode]
  case lb | lh | lw | lbu | lhu => rw [noMapping_of_load] <;> simp [encode]
  case sb | sh | sw => rw [noMapping_of_store] <;> simp [encode]
  case beq | bne | blt | bge | bltu | bgeu => rw [noMapping_of_branch] <;> simp [encode]
  case jal | jalr | lui | auipc | fence | system => simp [noMapping, opNum_eq, encode]

/-! ## A word from the fields dispatch looks at and the fields its instruction keeps (R72) -/

section
variable {w : Word} {f7 : BitVec 7} {f3 : BitVec 3} {op : BitVec 7}

theorem encodeR_of_fields (hop : opcodeOf w = op) (h3 : funct3Of w = f3) (h7 : funct7Of w = f7) :
    encodeR f7 (rs2Of w) (rs1Of w) f3 (rdOf w) op = w := by
  subst hop h3 h7; exact encodeR_fields w

theorem encodeI_of_fields (hop : opcodeOf w = op) (h3 : funct3Of w = f3) :
    encodeI (immFieldI w) (rs1Of w) f3 (rdOf w) op = w := by
  subst hop h3; exact encodeI_fields w

theorem encodeS_of_fields (hop : opcodeOf w = op) (h3 : funct3Of w = f3) :
    encodeS (immFieldS w) (rs2Of w) (rs1Of w) f3 op = w := by
  subst hop h3; exact encodeS_fields w

theorem encodeB_of_fields (hop : opcodeOf w = op) (h3 : funct3Of w = f3) :
    encodeB (immFieldB w) (rs2Of w) (rs1Of w) f3 op = w := by
  subst hop h3; exact encodeB_fields w

theorem encodeU_of_fields (hop : opcodeOf w = op) : encodeU (immFieldU w) (rdOf w) op = w := by
  subst hop; exact encodeU_fields w

theorem encodeJ_of_fields (hop : opcodeOf w = op) : encodeJ (immFieldJ w) (rdOf w) op = w := by
  subst hop; exact encodeJ_fields w

theorem encodeRest_of_fields (hop : opcodeOf w = op) : (restOf w ++ op : Word) = w := by
  subst hop; exact encodeRest_fields w

end

/-! ## Dispatch, group by group (R80 to R86) -/

/-- What an answer of the decoder says about the word: an instruction is well formed, has that word, and has its
operands from the fields of that word; a rejected word is one of R87. -/
def DecodeSound (w : Word) : Except Reject Instr → Prop
  | .ok i => i.wellFormed = true ∧ encode i = w ∧ i.operandsFrom w (decodeFields w)
  | .error _ => noMapping w = true

theorem dispatchOp_sound {w : Word} (hop : opcodeOf w = 0b0110011#7) : DecodeSound w (dispatchOp w) := by
  unfold dispatchOp
  split
  case h_11 =>
    simp only [DecodeSound, noMapping_of_op hop]
    simp [← BitVec.toNat_inj] at *
    omega
  all_goals next h3 h7 => exact ⟨rfl, encodeR_of_fields hop h3 h7, rfl, rfl, rfl⟩

theorem dispatchOpImm_sound {w : Word} (hop : opcodeOf w = 0b0010011#7) : DecodeSound w (dispatchOpImm w) := by
  unfold dispatchOpImm
  split
  case h_3 h3 => exact ⟨rfl, encodeI_of_fields hop h3, rfl, rfl, immFieldI_toNat w⟩
  case h_7 h3 =>
    split
    · next h7 => exact ⟨rfl, encodeR_of_fields hop h3 h7, rfl, rfl, rfl⟩
    · next h7 => simpa [DecodeSound, noMapping_of_opImm hop, h3] using h7
  case h_8 =>
    have h5 : funct3Of w = 0b101#3 := by
      simp [← BitVec.toNat_inj] at *
      omega
    split
    · next h7 => exact ⟨rfl, encodeR_of_fields hop h5 h7, rfl, rfl, rfl⟩
    · next h7 => exact ⟨rfl, encodeR_of_fields hop h5 h7, rfl, rfl, rfl⟩
    · next h7 h7' => simpa [DecodeSound, noMapping_of_opImm hop, h5] using And.intro h7 h7'
  all_goals next h3 => exact ⟨rfl, encodeI_of_fields hop h3, rfl, rfl, rfl⟩

theorem dispatchLoad_sound {w : Word} (hop : opcodeOf w = 0b0000011#7) : DecodeSound w (dispatchLoad w) := by
  unfold dispatchLoad
  split
  case h_6 =>
    simp only [DecodeSound, noMapping_of_load hop]
    simp [← BitVec.toNat_inj] at *
    omega
  all_goals next h3 => exact ⟨rfl, encodeI_of_fields hop h3, rfl, rfl, rfl⟩

theorem dispatchStore_sound {w : Word} (hop : opcodeOf w = 0b0100011#7) : DecodeSound w (dispatchStore w) := by
  unfold dispatchStore
  split
  case h_4 =>
    simp only [DecodeSound, noMapping_of_store hop]
    simp [← BitVec.toNat_inj] at *
    omega
  all_goals next h3 => exact ⟨rfl, encodeS_of_fields hop h3, rfl, rfl, rfl⟩

theorem dispatchBranch_sound {w : Word} (hop : opcodeOf w = 0b1100011#7) : DecodeSound w (dispatchBranch w) := by
  have heven := (evenOffset_iff _).2 (immFieldB_even w)
  unfold dispatchBranch
  split
  case h_7 =>
    simp only [DecodeSound, noMapping_of_branch hop]
    simp [← BitVec.toNat_inj] at *
    omega
  all_goals next h3 => exact ⟨heven, encodeB_of_fields hop h3, rfl, rfl, rfl⟩

theorem decode_sound (w : Word) : DecodeSound w (decode w) := by
  unfold decode
  split
  case h_1 hop => exact dispatchOp_sound hop
  case h_2 hop => exact dispatchOpImm_sound hop
  case h_3 hop => exact dispatchLoad_sound hop
  case h_4 hop => exact dispatchStore_sound hop
  case h_5 hop => exact dispatchBranch_sound hop
  case h_6 hop => exact ⟨(evenOffset_iff _).2 (immFieldJ_even w), encodeJ_of_fields hop, rfl, rfl⟩
  case h_7 hop => exact ⟨rfl, encodeI_of_fields hop rfl, rfl, rfl, rfl, rfl⟩
  case h_8 hop | h_9 hop => exact ⟨rfl, encodeU_of_fields hop, rfl, rfl⟩
  case h_10 hop | h_11 hop => exact ⟨rfl, encodeRest_of_fields hop, restOf_toNat w⟩
  case h_12 =>
    refine noMapping_of_unknown ?_
    simp [opNum_eq, ← BitVec.toNat_inj] at *
    omega

theorem decode_ok {w : Word} {i : Instr} (h : decode w = .ok i) :
    i.wellFormed = true ∧ encode i = w ∧ i.operandsFrom w (decodeFields w) := by
  have hsound := decode_sound w
  rwa [h] at hsound

theorem decode_error_iff (w : Word) : (∃ e, decode w = .error e) ↔ noMapping w = true := by
  constructor
  · rintro ⟨e, h⟩
    have hsound := decode_sound w
    rwa [h] at hsound
  · intro hno
    cases h : decode w with
    | error e => exact ⟨e, rfl⟩
    | ok i =>
      obtain ⟨-, rfl, -⟩ := decode_ok h
      simp [noMapping_encode] at hno

/-- Settles O4: each group's word is put together again from the fields dispatch looked at and those it kept. -/
theorem encodeOfDecodeIsTheWord : Obligations.EncodeOfDecodeIsTheWord :=
  fun _ _ h => ⟨(decode_ok h).1, (decode_ok h).2.1⟩

/-- Settles O12: dispatch takes each operand from the field of its format. -/
theorem decodedOperandsAreTheFields : Obligations.DecodedOperandsAreTheFields :=
  fun _ _ h => (decode_ok h).2.2

/-- Settles O6: a rejected word falls under its case of R87, and the word of an instruction under none. -/
theorem rejectedWordsAreTheSevenCases : Obligations.RejectedWordsAreTheSevenCases := decode_error_iff

/-- Settles O1: by evaluation of the decoder. -/
theorem exampleWordsDecode : Obligations.ExampleWordsDecode := by
  unfold Obligations.ExampleWordsDecode
  decide

/-! ## The rows of the opcode table (R91) -/

theorem fields_of_maskFunct7 {w v : Word} (h : w &&& 0xFE00707F#32 = v) :
    opcodeOf w = opcodeOf v ∧ funct3Of w = funct3Of v ∧ funct7Of w = funct7Of v := by
  rw [and_maskFunct7] at h
  subst h
  simp

theorem fields_of_maskFunct3 {w v : Word} (h : w &&& 0x0000707F#32 = v) :
    opcodeOf w = opcodeOf v ∧ funct3Of w = funct3Of v := by
  rw [and_maskFunct3] at h
  subst h
  simp

theorem opcode_of_maskOpcode {w v : Word} (h : w &&& 0x0000007F#32 = v) : opcodeOf w = opcodeOf v := by
  rw [and_maskOpcode] at h
  subst h
  simp

/-- The row of the instruction a word decodes to. -/
def decodedRow (w : Word) : Except Reject OpcodeRow := (decode w).map Instr.row

theorem decodedRow_eq_ok_iff {w : Word} {r : OpcodeRow} :
    decodedRow w = .ok r ↔ ∃ i, decode w = .ok i ∧ i.row = r := by
  cases h : decode w <;> simp [decodedRow, h, Except.map]

section
variable {w : Word} {r : OpcodeRow}

theorem decodedRow_of_selects_funct7 (hr : r ∈ opcodeRowsFunct7) (h : r.selects w) : decodedRow w = .ok r := by
  simp only [opcodeRowsFunct7, List.mem_cons, List.not_mem_nil, or_false] at hr
  rcases hr with rfl | rfl | rfl | rfl | rfl | rfl | rfl | rfl | rfl | rfl | rfl | rfl | rfl
  all_goals
    obtain ⟨hop, h3, h7⟩ := fields_of_maskFunct7 h
    simp only [decodedRow, decode, dispatchOp, dispatchOpImm, hop, h3, h7]
    rfl

theorem decodedRow_of_selects_funct3 (hr : r ∈ opcodeRowsFunct3) (h : r.selects w) : decodedRow w = .ok r := by
  simp only [opcodeRowsFunct3, List.mem_cons, List.not_mem_nil, or_false] at hr
  rcases hr with rfl | rfl | rfl | rfl | rfl | rfl | rfl | rfl | rfl | rfl | rfl | rfl | rfl | rfl | rfl | rfl |
    rfl | rfl | rfl | rfl
  all_goals
    obtain ⟨hop, h3⟩ := fields_of_maskFunct3 h
    simp only [decodedRow, decode, dispatchOpImm, dispatchLoad, dispatchStore, dispatchBranch, hop, h3]
    rfl

theorem decodedRow_of_selects_opcode (hr : r ∈ opcodeRowsOpcode) (h : r.selects w) : decodedRow w = .ok r := by
  simp only [opcodeRowsOpcode, List.mem_cons, List.not_mem_nil, or_false] at hr
  rcases hr with rfl | rfl | rfl | rfl | rfl | rfl
  all_goals
    simp only [decodedRow, decode, opcode_of_maskOpcode h]
    rfl

/-- A word that selects a row decodes to an instruction of it; so it selects no other row. -/
theorem decodedRow_of_selects (hr : r ∈ opcodeTable) (h : r.selects w) : decodedRow w = .ok r := by
  rcases List.mem_append.1 hr with hr | hr
  · rcases List.mem_append.1 hr with hr | hr
    · exact decodedRow_of_selects_funct7 hr h
    · exact decodedRow_of_selects_funct3 hr h
  · exact decodedRow_of_selects_opcode hr h

end

theorem row_mem_opcodeTable (i : Instr) : i.row ∈ opcodeTable := by
  cases i <;> exact of_decide_eq_true rfl

theorem row_selects_encode (i : Instr) : i.row.selects (encode i) := by
  cases i
  case add | sub | sll | slt | sltu | xor | srl | sra | or | and | slli | srli | srai =>
    exact (Laws.SelectsRow.of_encodeR ..).trans rfl
  case addi | slti | sltiu | xori | ori | andi | lb | lh | lw | lbu | lhu =>
    exact (Laws.SelectsRow.of_encodeI ..).trans rfl
  case sb | sh | sw => exact (Laws.SelectsRow.of_encodeS ..).trans rfl
  case beq | bne | blt | bge | bltu | bgeu => exact (Laws.SelectsRow.of_encodeB ..).trans rfl
  case jal => exact (Laws.SelectsRow.of_encodeJ ..).trans rfl
  case jalr => exact (Laws.SelectsRow.of_encodeI_opcode ..).trans rfl
  case lui | auipc => exact (Laws.SelectsRow.of_encodeU ..).trans rfl
  case fence | system => exact (Laws.SelectsRow.of_encodeRest ..).trans rfl

/-- Settles O5: a selected row is the row of the decoded instruction, and the word of an instruction selects its
row. -/
theorem dispatchIsTheOpcodeTable : Obligations.DispatchIsTheOpcodeTable := by
  refine ⟨rfl, fun w r hr h => decodedRow_eq_ok_iff.1 (decodedRow_of_selects hr h), fun w i h => ?_,
    fun w r hr q hq h h' => ?_⟩
  · obtain ⟨-, rfl, -⟩ := decode_ok h
    exact ⟨row_mem_opcodeTable i, row_selects_encode i⟩
  · exact Except.ok.inj ((decodedRow_of_selects hr h).symm.trans (decodedRow_of_selects hq h'))

end Sys2Proof
end

section
/-! PROOFS. One step of the engine (40_engine_cycle.md R100 to R112; 60_exceptions.md R220 to R230): what a step
answers in each case, how it can halt, and what it leaves as it was. -/

namespace Sys2Proof.Machine

/-! ## The step, case by case (R101, R105, R107) -/

section
variable {s : State}

theorem step_of_halted {reason : HaltReason} (hrun : s.run = .halted reason) : step s = .fault .engineHalted := by
  simp only [step, hrun]

theorem step_of_misaligned (hrun : s.run = .running) (hpc : s.pc.toNat % 4 ≠ 0) :
    step s = .next (s.raise (.alignmentFault s.pc)) := by
  simp [step, hrun, State.fetchInstr, State.aligned, hpc]

theorem step_of_reject {e : Reject} (hrun : s.run = .running) (hpc : s.pc.toNat % 4 = 0)
    (hdecode : decode s.fetch = .error e) : step s = .next (s.raise (decodeErrorOf s.fetch)) := by
  simp [step, hrun, State.fetchInstr, State.aligned, hpc, hdecode]

theorem step_of_decode {i : Instr} (hrun : s.run = .running) (hpc : s.pc.toNat % 4 = 0)
    (hdecode : decode s.fetch = .ok i) : step s = exec i s := by
  simp [step, hrun, State.fetchInstr, State.aligned, hpc, hdecode]

/-- A Running engine always has a next state (R112). -/
theorem step_next (hrun : s.run = .running) : ∃ t, step s = .next t := by
  by_cases hpc : s.pc.toNat % 4 = 0
  · cases hdecode : decode s.fetch with
    | error e => exact ⟨_, step_of_reject hrun hpc hdecode⟩
    | ok i => exact step_of_decode hrun hpc hdecode ▸ exec_next i s
  · exact ⟨_, step_of_misaligned hrun hpc⟩

end

/-- Settles O2: dispatch hands the decoded instruction, which is well formed, to `exec`. -/
theorem stepRunsTheDecodedInstruction : Obligations.StepRunsTheDecodedInstruction :=
  fun _ _ hrun hpc hdecode => ⟨(decode_ok hdecode).1, step_of_decode hrun hpc hdecode⟩

/-- Settles O16: the zero word has no mapping, and its fields are 0. -/
theorem zeroWordHaltsWithDecodeError : Obligations.ZeroWordHaltsWithDecodeError := by
  intro s hrun hpc hfetch
  have hzero : s.fetch = 0#32 := hfetch
  have hdecode : decode s.fetch = .error .unknownOpcode := hzero ▸ rfl
  rw [step_of_reject hrun hpc hdecode, hzero]
  rfl

/-! ## What an instruction does to each component of the state -/

section
variable {i : Instr} {s t : State}

/-- Only SYSTEM changes the run state, and it changes nothing else (R106, R213). -/
theorem exec_run_cases (h : exec i s = .next t) :
    (i.isSystem = false ∧ t.run = s.run) ∨ (i.isSystem = true ∧ t = s.raise (.systemCall (encode i))) := by
  rcases exec_cases i s with ⟨rd, v, -, -, -, hsys, hexec⟩ | ⟨ea, v, n, -, -, -, -, hsys, hexec⟩ |
    ⟨taken, off, -, -, -, hsys, -, hexec⟩ | ⟨rd, off, rfl, hexec⟩ | ⟨rd, rs1, imm, _, rfl, hexec⟩ |
    ⟨_, rfl, hexec⟩ | ⟨payload, rfl, hexec⟩ <;> cases hexec.symm.trans h
  · exact .inl ⟨hsys, s.writeBack_run rd v⟩
  · exact .inl ⟨hsys, rfl⟩
  · exact .inl ⟨hsys, rfl⟩
  · exact .inl ⟨rfl, s.linkTo_run rd _⟩
  · exact .inl ⟨rfl, s.linkTo_run rd _⟩
  · exact .inl ⟨rfl, rfl⟩
  · exact .inr ⟨rfl, rfl⟩

/-- A register that is not the destination keeps its value (10_state.md R22). -/
theorem exec_readReg_of_ne_dest (h : exec i s = .next t) {r : RegIdx} (hr : i.dest ≠ some r) :
    t.readReg r = s.readReg r := by
  have hne {rd : RegIdx} (hrd : i.dest = some rd) : r ≠ rd := fun hrrd => hr (hrrd ▸ hrd)
  rcases exec_cases i s with ⟨rd, v, hrd, -, -, -, hexec⟩ | ⟨_, _, _, -, -, -, -, -, hexec⟩ |
    ⟨_, _, -, -, -, -, -, hexec⟩ | ⟨rd, off, rfl, hexec⟩ | ⟨rd, rs1, imm, _, rfl, hexec⟩ |
    ⟨_, rfl, hexec⟩ | ⟨_, rfl, hexec⟩ <;> cases hexec.symm.trans h
  · exact s.readReg_writeReg_ne v (hne hrd)
  · rfl
  · rfl
  · exact s.readReg_writeReg_ne _ (hne rfl)
  · exact s.readReg_writeReg_ne _ (hne rfl)
  · rfl
  · rfl

/-- Only a store changes memory (10_state.md section 5). -/
theorem exec_mem_of_not_store (h : exec i s = .next t) (hstore : i.isStore = false) : t.mem = s.mem := by
  rcases exec_cases i s with ⟨rd, v, -, -, -, -, hexec⟩ | ⟨_, _, _, -, -, -, hstore', -⟩ |
    ⟨_, _, -, -, -, -, -, hexec⟩ | ⟨rd, off, rfl, hexec⟩ | ⟨rd, rs1, imm, _, rfl, hexec⟩ |
    ⟨_, rfl, hexec⟩ | ⟨_, rfl, hexec⟩
  case inr.inl => cases hstore'.symm.trans hstore
  all_goals cases hexec.symm.trans h
  · exact s.writeBack_mem rd v
  · rfl
  · exact s.linkTo_mem rd _
  · exact s.linkTo_mem rd _
  · rfl
  · rfl

theorem exec_mem_cap (h : exec i s = .next t) : t.mem.cap = s.mem.cap := by
  obtain ⟨ea, v, n, -, -, hmem⟩ := exec_mem h
  rw [hmem, Memory.store_cap]

theorem exec_mem_wf (hwf : s.mem.wf) (h : exec i s = .next t) : t.mem.wf := by
  obtain ⟨ea, v, n, -, -, hmem⟩ := exec_mem h
  exact hmem ▸ Memory.wf_store hwf ea v n

/-- An instruction that is no branch or jump and does not halt goes on to the next word (10_state.md R26). -/
theorem exec_pc_of_not_transfer (h : exec i s = .next t) (htransfer : i.isTransfer = false) :
    t.pc = if i.isSystem = true then s.pc else s.npc := by
  rcases exec_cases i s with ⟨rd, v, -, -, -, hsys, hexec⟩ | ⟨_, _, _, -, -, -, -, hsys, hexec⟩ |
    ⟨_, _, -, htransfer', -⟩ | ⟨rd, off, rfl, -⟩ | ⟨rd, rs1, imm, _, rfl, -⟩ |
    ⟨_, rfl, hexec⟩ | ⟨_, rfl, hexec⟩
  case inr.inr.inl => cases htransfer'.symm.trans htransfer
  case inr.inr.inr.inl | inr.inr.inr.inr.inl => cases htransfer
  all_goals cases hexec.symm.trans h
  · simp [hsys]
  · simp [hsys]
  · rfl
  · rfl

/-- From a multiple of 4 the next word is in memory, at a multiple of 4: so is CAP (10_state.md R25, R26). -/
theorem State.npc_aligned (hpc : s.pc.toNat % 4 = 0) :
    s.npc.toNat % 4 = 0 ∧ s.npc.toNat + 4 ≤ s.mem.cap := by
  obtain ⟨k, hk⟩ := s.mem.four_dvd_cap
  have hlt := Nat.mod_lt (s.pc.toNat + 4) s.mem.cap_pos
  have hmod : (s.pc.toNat + 4) % s.mem.cap % 4 = 0 := by
    rw [Nat.mod_mod_of_dvd _ s.mem.four_dvd_cap]
    omega
  rw [State.npc_toNat]
  omega

/-- Every offset of a well-formed branch or JAL is even, and JALR clears bit 0 (60_exceptions.md R221: "`pc` is never
odd"). -/
theorem exec_pc_even (hwf : i.wellFormed = true) (hpc : s.pc.toNat % 2 = 0) (h : exec i s = .next t) :
    t.pc.toNat % 2 = 0 := by
  have hnpc : s.npc.toNat % 2 = 0 := by
    rw [State.npc_toNat, Nat.mod_mod_of_dvd _ (Nat.dvd_trans (by decide) s.mem.four_dvd_cap)]
    omega
  rcases exec_cases i s with ⟨rd, v, -, -, -, -, hexec⟩ | ⟨ea, v, n, -, -, -, -, -, hexec⟩ |
    ⟨taken, off, -, -, -, -, heven, hexec⟩ | ⟨rd, off, rfl, hexec⟩ | ⟨rd, rs1, imm, _, rfl, hexec⟩ |
    ⟨_, rfl, hexec⟩ | ⟨payload, rfl, hexec⟩ <;> cases hexec.symm.trans h
  · exact hnpc
  · exact hnpc
  · have hoff := (toNat_signExtend_mod (k := 1) (v := 32) off (by decide) (by decide)).trans
      ((evenOffset_iff off).1 (heven hwf))
    cases taken
    · exact hnpc
    · exact even_add s.pc (immB off) hpc hoff
  · exact even_add s.pc (immJ off) hpc
      ((toNat_signExtend_mod (k := 1) off (by decide) (by decide)).trans ((evenOffset_iff off).1 hwf))
  · rw [State.linkTo_pc, State.jalrTarget, clearBit0_toNat]
    omega
  · exact hnpc
  · exact hpc

end

/-! ## Halts -/

theorem decodeErrorOf_eq (w : Word) : decodeErrorOf w =
    .decodeError (BitVec.ofNat 7 (opNum w)) (BitVec.ofNat 3 (f3Num w)) (BitVec.ofNat 7 (f7Num w)) := by
  simp [decodeErrorOf, opNum_eq, f3Num_eq, f7Num_eq]

/-- SYSTEM is opcode 0x73 (30_encoding.md R86). -/
theorem opNum_encode_eq_system_iff (i : Instr) : opNum (encode i) = 0x73 ↔ i.isSystem = true := by
  cases i <;> simp [opNum_eq, encode, Instr.isSystem]

theorem State.fetch_eq (s : State) : s.fetch = s.mem.loadWord s.pc := rfl

/-- Settles O13: the alignment test comes first, then dispatch, then SYSTEM. -/
theorem runningStepOutcome : Obligations.RunningStepOutcome := by
  intro s hrun
  obtain ⟨t, hstep⟩ := step_next hrun
  refine ⟨t, hstep, ?_⟩
  have hcases := (step_cases hstep).2
  rw [State.fetch_eq] at hcases
  generalize s.mem.loadWord s.pc = w at hcases ⊢
  rcases hcases with ⟨hpc, rfl⟩ | ⟨hpc, hreject, rfl⟩ | ⟨hpc, i, hdecode, hexec⟩
  · rw [if_pos hpc, State.raise_run]
  · rw [if_neg (not_not.2 hpc), if_pos ((decode_error_iff _).1 hreject), State.raise_run, decodeErrorOf_eq]
  · obtain ⟨-, hword, -⟩ := decode_ok hdecode
    have hmapped : ¬ noMapping w = true := by simp [← hword, noMapping_encode]
    have hopcode := hword ▸ opNum_encode_eq_system_iff i
    rw [if_neg (not_not.2 hpc), if_neg hmapped]
    rcases exec_run_cases hexec with ⟨hsys, hrun'⟩ | ⟨hsys, rfl⟩
    · rw [if_neg (by simp [hopcode, hsys]), hrun', hrun]
    · rw [if_pos (hopcode.2 hsys), State.raise_run, hword]

/-- Settles O14: a halt is raised at the fetch, at dispatch or by SYSTEM, and raising it is all that is done. -/
theorem haltChangesOnlyTheRunState : Obligations.HaltChangesOnlyTheRunState := by
  intro s t reason hstep hhalt
  obtain ⟨hrun, hcases⟩ := step_cases hstep
  rcases hcases with ⟨-, rfl⟩ | ⟨-, -, rfl⟩ | ⟨-, i, -, hexec⟩
  · cases hhalt; rfl
  · cases hhalt; rfl
  · rcases exec_run_cases hexec with ⟨-, hrun'⟩ | ⟨-, rfl⟩
    · cases (hrun'.trans hrun).symm.trans hhalt
    · cases hhalt; rfl

/-- Settles O15: a run takes no step from a Halted state. -/
theorem haltedIsTerminal : Obligations.HaltedIsTerminal := by
  intro s reason hhalt
  refine ⟨step_of_halted hhalt, fun n => ?_⟩
  cases n with
  | zero => rfl
  | succ n => simp only [State.runUpTo, hhalt]

/-- Settles O17: the word of SYSTEM is its payload above the opcode, and raising the halt is all it does. -/
theorem systemHaltsWithItsWord : Obligations.SystemHaltsWithItsWord :=
  fun s payload => ⟨systemWord payload, encodeRest_toNat payload 0x73#7, rfl, execSystem_eq payload s⟩

/-! ## The invariant of a run -/

theorem State.haltExplained_of_running {s : State} (hrun : s.run = .running) : s.haltExplained = true := by
  simp only [State.haltExplained, hrun]

/-- An even program counter that is no multiple of 4 is 2 modulo 4 (60_exceptions.md R221). -/
theorem haltExplained_of_misaligned {s : State} (heven : s.pc.toNat % 2 = 0) (hpc : s.pc.toNat % 4 ≠ 0) :
    (s.raise (.alignmentFault s.pc)).haltExplained = true := by
  have htwo : s.pc.toNat % 4 = 2 := by omega
  simp [State.haltExplained, htwo]

theorem haltExplained_of_reject {s : State} (hpc : s.pc.toNat % 4 = 0) (hno : noMapping s.fetch = true) :
    (s.raise (decodeErrorOf s.fetch)).haltExplained = true := by
  simp [State.haltExplained, decodeErrorOf, State.fetch_raise, hpc, hno, opNum_eq, f3Num_eq, f7Num_eq]

theorem haltExplained_of_system {s : State} (hpc : s.pc.toNat % 4 = 0) (hop : opNum s.fetch = 0x73) :
    (s.raise (.systemCall s.fetch)).haltExplained = true := by
  simp [State.haltExplained, State.fetch_raise, hpc, hop]

/-- Settles O21: an instruction keeps memory canonical and the program counter even, and each of the three halts
finds its reason in the state. -/
theorem stepKeepsTheInvariant : Obligations.StepKeepsTheInvariant := by
  rintro s t ⟨hwf, heven, -⟩ hstep
  obtain ⟨hrun, hcases⟩ := step_cases hstep
  rcases hcases with ⟨hpc, rfl⟩ | ⟨hpc, hreject, rfl⟩ | ⟨hpc, i, hdecode, hexec⟩
  · exact ⟨hwf, heven, haltExplained_of_misaligned heven hpc⟩
  · exact ⟨hwf, heven, haltExplained_of_reject hpc ((decode_error_iff _).1 hreject)⟩
  · obtain ⟨hi, hword, -⟩ := decode_ok hdecode
    refine ⟨exec_mem_wf hwf hexec, exec_pc_even hi heven hexec, ?_⟩
    rcases exec_run_cases hexec with ⟨-, hrun'⟩ | ⟨hsys, rfl⟩
    · exact State.haltExplained_of_running (hrun'.trans hrun)
    · have hop : opNum (encode i) = 0x73 := (opNum_encode_eq_system_iff i).2 hsys
      rw [hword] at hop ⊢
      exact haltExplained_of_system hpc hop

/-- Settles O22: no byte is listed, the program counter is 0 and the engine is Running. -/
theorem resetMeetsTheInvariant : Obligations.ResetMeetsTheInvariant := ⟨State.reset_wf, rfl, rfl⟩

/-- What reset answers when it answers a state (70_reset_and_hazards.md R250). -/
theorem boot_eq_next {c : Fin 31} {image : List Byte} {s : State} (h : boot c image = .next s) :
    s = { State.reset with mem := { capExp := c, cells := imageCells 0 image } } := by
  unfold boot at h
  split at h <;> cases h
  rfl

/-- Settles O23: an image is loaded in canonical form, and all else is as after reset. -/
theorem bootMeetsTheInvariant : Obligations.BootMeetsTheInvariant := by
  intro c image s h
  have hwf := boot_wf h
  obtain rfl := boot_eq_next h
  exact ⟨hwf, rfl, rfl⟩

/-- Settles O20: the test for the length fails. -/
theorem bootRefusesAnOverlongImage : Obligations.BootRefusesAnOverlongImage :=
  fun _ _ hlong => if_neg (Nat.not_le.2 hlong)

/-- Settles O18: every component of the reset state, which is what the empty image leaves. -/
theorem resetValues : Obligations.ResetValues :=
  ⟨State.reset_readReg, rfl, rfl, rfl, fun _ => rfl, rfl⟩

/-! ## What a step leaves as it was -/

/-- A halt before execution changes no register and no byte (60_exceptions.md R228). -/
theorem State.raise_same (s : State) (reason : HaltReason) :
    SameRegs s (s.raise reason) ∧ SameMem s (s.raise reason) := ⟨fun _ => rfl, rfl, fun _ => rfl⟩

/-- Settles O24: a halt leaves memory alone, and a store keeps its capacity. -/
theorem stepKeepsTheCapacity : Obligations.StepKeepsTheCapacity := by
  intro s t hstep
  rcases (step_cases hstep).2 with ⟨-, rfl⟩ | ⟨-, -, rfl⟩ | ⟨-, i, -, hexec⟩
  · rfl
  · rfl
  · exact exec_mem_cap hexec

/-- Settles O48: a halt and an instruction that is no store leave memory alone. -/
theorem onlyStoresChangeMemory : Obligations.OnlyStoresChangeMemory := by
  rintro s t hstep ⟨k, hk⟩
  rcases (step_cases hstep).2 with ⟨-, rfl⟩ | ⟨-, -, rfl⟩ | ⟨-, i, hdecode, hexec⟩
  · cases hk rfl
  · cases hk rfl
  · refine ⟨i, hdecode, ?_⟩
    by_contra hstore
    exact hk (by rw [exec_mem_of_not_store hexec (by simpa using hstore)])

theorem mem_map_index_iff (m : Memory) (a : Word) (n k : Nat) :
    k ∈ (List.range n).map (m.index a) ↔ ∃ j, j < n ∧ k = (a.toNat + j) % m.cap := by
  simp [Memory.index, eq_comm]

/-- The frame of an instruction in memory (20_memory.md R43, R51). -/
theorem exec_storedBytes {i : Instr} {s t : State} (h : exec i s = .next t) :
    (s.storedBytes i).length ≤ 4 ∧ ∀ k, k ∉ s.storedBytes i → t.mem.get k = s.mem.get k := by
  obtain ⟨ea, v, n, hn, hbytes, hmem⟩ := exec_mem h
  rw [hbytes, hmem, List.length_map, List.length_range]
  refine ⟨hn, fun k hk => s.mem.get_store_other ea v fun i hi hki => hk ?_⟩
  exact (mem_map_index_iff s.mem ea n k).2 ⟨i, hi, hki⟩

/-- Settles O25: the frame of the instruction the step runs, and of a halt before execution. -/
theorem stepWritesAtMostOneRegisterAndFourBytes : Obligations.StepWritesAtMostOneRegisterAndFourBytes := by
  intro s t hstep
  have hrun := (step_cases hstep).1
  constructor
  · intro i hpc hdecode
    have hexec : exec i s = .next t := (step_of_decode hrun hpc hdecode).symm.trans hstep
    obtain ⟨hlength, hother⟩ := exec_storedBytes hexec
    refine ⟨fun r hr => exec_readReg_of_ne_dest hexec hr, hlength, hother, ?_, ?_, ?_, fun hstore => ?_⟩
    · rintro rs1 rs2 imm k rfl
      exact mem_map_index_iff s.mem _ 1 k
    · rintro rs1 rs2 imm k rfl
      exact mem_map_index_iff s.mem _ 2 k
    · rintro rs1 rs2 imm k rfl
      exact mem_map_index_iff s.mem _ 4 k
    · have hmem := exec_mem_of_not_store hexec hstore
      exact ⟨congrArg Memory.cap hmem, fun k => congrArg (Memory.get · k) hmem⟩
  · intro hnone
    rcases (step_cases hstep).2 with ⟨-, rfl⟩ | ⟨-, -, rfl⟩ | ⟨hpc, i, hdecode, -⟩
    · exact s.raise_same _
    · exact s.raise_same _
    · obtain ⟨-, hword, -⟩ := decode_ok hdecode
      rcases hnone with hmisaligned | hno
      · cases hmisaligned hpc
      · rw [← State.fetch_eq, ← hword, noMapping_encode] at hno
        cases hno

/-! ## Alignment of the next program counter -/

/-- Settles O54: the next word is at `npc`, and SYSTEM keeps the program counter. -/
theorem sequentialAdvanceStaysAligned : Obligations.SequentialAdvanceStaysAligned := by
  intro i s htransfer
  obtain ⟨t, hexec⟩ := exec_next i s
  refine ⟨t, hexec, ?_⟩
  rw [exec_pc_of_not_transfer hexec htransfer]
  split
  · rfl
  · exact ⟨s.npc_toNat, State.npc_aligned⟩

/-- Settles O55: only a branch or jump leaves the multiples of 4, its target is even, and the next step tests it. -/
theorem misalignedTargetHaltsAtTheNextFetch : Obligations.MisalignedTargetHaltsAtTheNextFetch := by
  intro s t hstep hrun hmisaligned
  rcases (step_cases hstep).2 with ⟨-, rfl⟩ | ⟨-, -, rfl⟩ | ⟨hpc, i, hdecode, hexec⟩
  · cases hrun
  · cases hrun
  · have htransfer : i.isTransfer = true := by
      by_contra hseq
      apply hmisaligned
      rw [exec_pc_of_not_transfer hexec (by simpa using hseq)]
      split
      · exact hpc
      · exact (State.npc_aligned hpc).1
    have heven := exec_pc_even (decode_ok hdecode).1 (by omega) hexec
    exact ⟨⟨i, hdecode, htransfer⟩, by omega, step_of_misaligned hrun hmisaligned⟩

end Sys2Proof.Machine
end

section
/-! PROOFS. What each remaining group of instructions does (41_op_alu.md R125; 42_op_imm_alu.md R143, R147 to R149;
45_branch.md; 46_jump.md; 48_fence_system.md R210; 20_memory.md section 7), and which registers an instruction reads
(10_state.md R22). -/

namespace Sys2Proof.Machine

/-! ## Comparisons and shifts -/

/-- Settles O36: the comparison is that of the unsigned numbers. -/
theorem setLessThanUnsigned : Obligations.SetLessThanUnsigned := by
  intro s rd rs1 rs2
  exact ⟨exec_regResult rfl (boolWord_toNat_of_iff (lessU_iff _ _)), Laws.SelectsRow.sltu rd rs1 rs2⟩

/-- The operand of SLTIU is zero-extended on this hardware (R143). -/
theorem sltiuOperand_toNat (f : BitVec 12) : (sltiuOperand Config.sltiuImmExt f).toNat = f.toNat :=
  zext_toNat f (by decide)

theorem lessU_sltiuOperand_iff (a : Word) (f : BitVec 12) :
    lessU a (sltiuOperand Config.sltiuImmExt f) = true ↔ a.toNat < f.toNat := by
  rw [lessU_iff, sltiuOperand_toNat]

/-- Settles O40: zero extension keeps the field's value, and the comparison is that of the unsigned numbers. -/
theorem setLessThanImmediateUnsigned : Obligations.SetLessThanImmediateUnsigned := by
  intro s rd rs1 imm
  exact ⟨exec_regResult rfl (boolWord_toNat_of_iff (lessU_sltiuOperand_iff _ _)),
    Laws.SelectsRow.sltiu rd rs1 imm⟩

/-- Settles O42: each shift is a product or a quotient by the power of two of its amount. -/
theorem immediateShifts : Obligations.ImmediateShifts := by
  intro s rd rs1 shamt
  exact ⟨exec_regResult rfl (shiftLeft_toNat _ _), exec_regResult rfl (shiftRightU_toNat _ _),
    exec_regResult rfl (shiftRightS_toInt _ _), Laws.SelectsRow.slli rd rs1 shamt,
    Laws.SelectsRow.srli rd rs1 shamt, Laws.SelectsRow.srai rd rs1 shamt⟩

/-! ## Branches (45_branch.md R180) -/

theorem State.branchTarget_toNat (s : State) (off : BitVec 13) :
    ((s.branchTarget off).toNat : Int) = (s.pc.toNat + off.toInt) % 2 ^ 32 := by
  rw [State.branchTarget, toNat_add_signed, immB_toInt]

/-- A branch has its one result, the program counter, given what its comparison decides. -/
theorem State.branchTo_branchResult (s : State) {taken : Bool} {p : Prop} (off : BitVec 13) (h : taken = true ↔ p) :
    BranchResult s (s.branchTo taken (s.branchTarget off)) p off := by
  refine ⟨fun hp => ?_, fun hp => ?_, fun _ => rfl, rfl, rfl, fun _ => rfl⟩
  · rw [State.branchTo_pc, if_pos (h.2 hp)]
    exact s.branchTarget_toNat off
  · show (s.branchTo taken (s.branchTarget off)).pc.toNat = _
    rw [State.branchTo_pc, if_neg fun ht => hp (h.1 ht)]
    exact s.npc_toNat

/-- Settles O49: the two conditions are equality and its negation. -/
theorem branchOnEquality : Obligations.BranchOnEquality := by
  intro s rs1 rs2 off
  exact ⟨⟨_, rfl, s.branchTo_branchResult off beq_iff_eq⟩, ⟨_, rfl, s.branchTo_branchResult off bne_iff_ne⟩,
    Laws.SelectsRow.beq rs1 rs2 off, Laws.SelectsRow.bne rs1 rs2 off⟩

theorem not_lessS_iff (a b : Word) : (!lessS a b) = true ↔ a.toInt ≥ b.toInt := by
  rw [Bool.not_eq_true', ← Bool.not_eq_true, lessS_iff, not_lt]

theorem not_lessU_iff (a b : Word) : (!lessU a b) = true ↔ a.toNat ≥ b.toNat := by
  rw [Bool.not_eq_true', ← Bool.not_eq_true, lessU_iff, not_lt]

/-- Settles O50: the two conditions are the order of the two's-complement numbers and its negation. -/
theorem branchOnSignedOrder : Obligations.BranchOnSignedOrder := by
  intro s rs1 rs2 off
  exact ⟨⟨_, rfl, s.branchTo_branchResult off (lessS_iff _ _)⟩,
    ⟨_, rfl, s.branchTo_branchResult off (not_lessS_iff _ _)⟩,
    Laws.SelectsRow.blt rs1 rs2 off, Laws.SelectsRow.bge rs1 rs2 off⟩

/-- Settles O51: the two conditions are the order of the unsigned numbers and its negation. -/
theorem branchOnUnsignedOrder : Obligations.BranchOnUnsignedOrder := by
  intro s rs1 rs2 off
  exact ⟨⟨_, rfl, s.branchTo_branchResult off (lessU_iff _ _)⟩,
    ⟨_, rfl, s.branchTo_branchResult off (not_lessU_iff _ _)⟩,
    Laws.SelectsRow.bltu rs1 rs2 off, Laws.SelectsRow.bgeu rs1 rs2 off⟩

/-! ## Jumps (46_jump.md R190, R191) -/

theorem State.jalTarget_toNat (s : State) (off : BitVec 21) :
    ((s.jalTarget off).toNat : Int) = (s.pc.toNat + off.toInt) % 2 ^ 32 := by
  rw [State.jalTarget, toNat_add_signed, immJ_toInt]

theorem State.jalrTarget_toNat (s : State) (rs1 : RegIdx) (imm : BitVec 12) :
    ((s.jalrTarget rs1 imm).toNat : Int) = ((s.readReg rs1).toNat + imm.toInt) % 2 ^ 32 / 2 * 2 := by
  rw [State.jalrTarget, clearBit0_toNat, ← toNat_add_immI]
  norm_cast

/-- What both jumps do beside going to their target. -/
theorem State.linkTo_links (s : State) (rd : RegIdx) (target : Word) :
    SetsReg s (s.linkTo rd target) rd s.linkValue ∧ s.linkValue.toNat = (s.pc.toNat + 4) % 2 ^ 32
    ∧ (s.linkTo rd target).run = s.run ∧ SameMem s (s.linkTo rd target) := by
  have hmem : SameMem s (s.linkTo rd target) := by simp [SameMem]
  exact ⟨fun q => s.linkTo_readReg rd q target, BitVec.toNat_add _ _, s.linkTo_run rd target, hmem⟩

/-- Settles O52: JAL links and goes to its target. -/
theorem jalLinksAndJumps : Obligations.JalLinksAndJumps := by
  intro s rd off
  obtain ⟨hreg, hlink, hrun, hmem⟩ := s.linkTo_links rd (s.jalTarget off)
  exact ⟨⟨_, _, rfl, hreg, hlink, s.jalTarget_toNat off, hrun, hmem⟩, Laws.SelectsRow.jal rd off⟩

/-- Settles O53: JALR links and goes to a target made from `x[rs1]` in the state before the link. -/
theorem jalrLinksAndJumps : Obligations.JalrLinksAndJumps := by
  intro s rd rs1 imm ignored
  obtain ⟨hreg, hlink, hrun, hmem⟩ := s.linkTo_links rd (s.jalrTarget rs1 imm)
  exact ⟨⟨_, _, rfl, hreg, hlink, s.jalrTarget_toNat rs1 imm, hrun, hmem⟩,
    Laws.SelectsRow.jalr rd rs1 imm ignored⟩

/-! ## FENCE, and a store over the next instruction -/

/-- Settles O57: FENCE is the advance of the program counter. -/
theorem fenceOnlyAdvances : Obligations.FenceOnlyAdvances :=
  fun s ignored => ⟨⟨_, rfl, fun _ => rfl, ⟨rfl, fun _ => rfl⟩, rfl, s.npc_toNat⟩, Laws.SelectsRow.fence ignored⟩

/-- Settles O47: the next fetch is a word read at an address with the residue of the stored one. -/
theorem storeIsSeenByTheNextFetch : Obligations.StoreIsSeenByTheNextFetch := by
  intro s rs1 rs2 imm halias
  have hnpc : s.npc.toNat % s.mem.cap = (s.storeAddr rs1 imm).toNat % s.mem.cap := by
    rw [s.npc_toNat, Nat.mod_mod, halias]
  exact ⟨_, rfl, s.mem.loadWord_storeWord (s.readReg rs2) hnpc⟩

/-! ## Which registers an instruction reads and writes (10_state.md R22) -/

/-- Two results agree on everything but the register file, and on the destination in it. -/
def AgreeOn (dest : Option RegIdx) (t v : State) : Prop :=
  t.pc = v.pc ∧ t.run = v.run ∧ t.mem = v.mem ∧ ∀ r, dest = some r → t.readReg r = v.readReg r

section
variable {s u : State} (hpc : s.pc = u.pc) (hrun : s.run = u.run) (hmem : s.mem = u.mem)
include hpc hmem

theorem State.npc_congr : s.npc = u.npc := by
  rw [State.npc, State.npc, hpc, hmem]

include hrun

theorem writeBack_agree {a b : Word} (rd : RegIdx) (hab : a = b) :
    AgreeOn (some rd) (s.writeBack rd a) (u.writeBack rd b) := by
  refine ⟨State.npc_congr hpc hmem, by simpa using hrun, by simpa using hmem, ?_⟩
  rintro r ⟨⟩
  by_cases hrd : rd = 0#5 <;> simp [State.writeBack_readReg, hrd, hab]

theorem linkTo_agree {a b : Word} (rd : RegIdx) (hab : a = b) :
    AgreeOn (some rd) (s.linkTo rd a) (u.linkTo rd b) := by
  refine ⟨hab, by simpa using hrun, by simpa using hmem, ?_⟩
  rintro r ⟨⟩
  by_cases hrd : rd = 0#5 <;> simp [State.linkTo_readReg, hrd, State.linkValue, hpc]

theorem storeAdvance_agree {ea a eb b : Word} (n : Nat) (heab : ea = eb) (hab : a = b) :
    AgreeOn none (s.storeAdvance ea a n) (u.storeAdvance eb b n) :=
  ⟨State.npc_congr hpc hmem, hrun, by simp [hmem, heab, hab], nofun⟩

theorem branchTo_agree {c d : Bool} (off : BitVec 13) (hcd : c = d) :
    AgreeOn none (s.branchTo c (s.branchTarget off)) (u.branchTo d (u.branchTarget off)) := by
  refine ⟨?_, hrun, hmem, nofun⟩
  rw [State.branchTo_pc, State.branchTo_pc, State.branchTarget, State.branchTarget, State.npc_congr hpc hmem,
    hpc, hcd]

/-- The sources are all that is read of the register file. -/
theorem exec_agree (i : Instr) (hsrc : ∀ r ∈ i.sources, s.readReg r = u.readReg r) :
    ∃ t v, exec i s = .next t ∧ exec i u = .next v ∧ AgreeOn i.dest t v := by
  cases i
  case add rd rs1 rs2 | sub rd rs1 rs2 | sll rd rs1 rs2 | slt rd rs1 rs2 | sltu rd rs1 rs2 | xor rd rs1 rs2 |
      srl rd rs1 rs2 | sra rd rs1 rs2 | or rd rs1 rs2 | and rd rs1 rs2 =>
    exact ⟨_, _, rfl, rfl, writeBack_agree hpc hrun hmem rd (by
      rw [hsrc rs1 (by simp [Instr.sources]), hsrc rs2 (by simp [Instr.sources])])⟩
  case addi rd rs1 _ | slti rd rs1 _ | sltiu rd rs1 _ | xori rd rs1 _ | ori rd rs1 _ | andi rd rs1 _ |
      slli rd rs1 _ | srli rd rs1 _ | srai rd rs1 _ =>
    exact ⟨_, _, rfl, rfl, writeBack_agree hpc hrun hmem rd (by rw [hsrc rs1 (by simp [Instr.sources])])⟩
  case lb rd rs1 _ | lh rd rs1 _ | lw rd rs1 _ | lbu rd rs1 _ | lhu rd rs1 _ =>
    exact ⟨_, _, rfl, rfl, writeBack_agree hpc hrun hmem rd (by
      rw [hmem, State.loadAddr, State.loadAddr, hsrc rs1 (by simp [Instr.sources])])⟩
  case sb rs1 rs2 _ | sh rs1 rs2 _ | sw rs1 rs2 _ =>
    exact ⟨_, _, rfl, rfl, storeAdvance_agree hpc hrun hmem _
      (by rw [State.storeAddr, State.storeAddr, hsrc rs1 (by simp [Instr.sources])])
      (hsrc rs2 (by simp [Instr.sources]))⟩
  case beq rs1 rs2 off | bne rs1 rs2 off | blt rs1 rs2 off | bge rs1 rs2 off | bltu rs1 rs2 off |
      bgeu rs1 rs2 off =>
    exact ⟨_, _, rfl, rfl, branchTo_agree hpc hrun hmem off (by
      rw [hsrc rs1 (by simp [Instr.sources]), hsrc rs2 (by simp [Instr.sources])])⟩
  case jal rd off =>
    exact ⟨_, _, rfl, rfl, linkTo_agree hpc hrun hmem rd (by rw [State.jalTarget, State.jalTarget, hpc])⟩
  case jalr rd rs1 imm _ =>
    exact ⟨_, _, rfl, rfl, linkTo_agree hpc hrun hmem rd (by
      rw [State.jalrTarget, State.jalrTarget, hsrc rs1 (by simp [Instr.sources])])⟩
  case lui rd imm => exact ⟨_, _, rfl, rfl, writeBack_agree hpc hrun hmem rd rfl⟩
  case auipc rd imm => exact ⟨_, _, rfl, rfl, writeBack_agree hpc hrun hmem rd (by rw [hpc])⟩
  case fence => exact ⟨_, _, rfl, rfl, State.npc_congr hpc hmem, hrun, hmem, nofun⟩
  case system => exact ⟨_, _, rfl, rfl, hpc, rfl, hmem, nofun⟩

end

/-- Settles O32: the results agree where the states agree on what is read, and the frame of each is its own. -/
theorem onlySourcesAreReadAndOnlyTheDestinationWritten :
    Obligations.OnlySourcesAreReadAndOnlyTheDestinationWritten := by
  intro i s u hsrc hpc hrun hmem
  obtain ⟨t, v, hs, hu, hpc', hrun', hmem', hdest⟩ := exec_agree hpc hrun hmem i hsrc
  exact ⟨t, v, hs, hu, hpc', hrun', hmem', hdest,
    fun r hr => ⟨exec_readReg_of_ne_dest hs hr, exec_readReg_of_ne_dest hu hr⟩⟩

end Sys2Proof.Machine
end

section
/-! PROOFS. Accesses of different widths (20_memory.md R45), and memories as the functions they are
(10_state.md R36; log entry 3). -/

namespace Sys2Proof.Machine

/-! ## The bytes of accesses at neighbouring addresses -/

/-- Byte `j` of an access `i` above `a`, the address wrapping at 32 bits (20_memory.md R41). -/
theorem Memory.byteAt_add (m : Memory) (a : Word) (i j : Nat) :
    m.byteAt (a + BitVec.ofNat 32 i) j = m.byteAt a (i + j) := by
  have hindex : m.index (a + BitVec.ofNat 32 i) j = m.index a (i + j) := by
    rw [Memory.index, Memory.index, BitVec.toNat_add, BitVec.toNat_ofNat, Nat.add_mod_mod,
      Nat.add_mod, m.wrap_mod_cap, ← Nat.add_mod, Nat.add_assoc]
  rw [Memory.byteAt, Memory.byteAt, hindex]

/-- A store leaves the bytes above its own as they were. -/
theorem Memory.byteAt_store_above (m : Memory) (a v : Word) {n i : Nat} (hn : n ≤ i) (hi : i < 4) :
    (m.store a v n).byteAt a i = m.byteAt a i := by
  rw [Memory.byteAt, Memory.store_index]
  refine m.get_store_other a v fun j hj h => ?_
  have := m.index_inj a hi (by omega) h
  omega

/-- Bytes `i` and `i + 1` of a word, put together. -/
theorem byteOf_pair_toNat (v : Word) (i : Nat) :
    (byteOf v i).toNat + (byteOf v (i + 1)).toNat * 2 ^ 8 = v.toNat / 2 ^ (8 * i) % 2 ^ 16 := by
  rw [byteOf_toNat, byteOf_toNat, Nat.mul_add, Nat.pow_add, ← Nat.div_div_eq_div_mul]
  omega

section
variable (m : Memory) (a w : Word)

theorem Memory.loadByte_storeWord {i : Nat} (hi : i < 4) :
    ((m.storeWord a w).loadByte (a + BitVec.ofNat 32 i)).toNat = w.toNat / 2 ^ (8 * i) % 2 ^ 8 := by
  rw [Memory.loadByte, Memory.byteAt_add, Memory.storeWord, Nat.add_zero, m.byteAt_store w (by decide) hi rfl]
  exact byteOf_toNat w i

theorem Memory.loadHalf_storeWord {i : Nat} (hi : i < 3) :
    ((m.storeWord a w).loadHalf (a + BitVec.ofNat 32 i)).toNat = w.toNat / 2 ^ (8 * i) % 2 ^ 16 := by
  rw [Memory.loadHalf_toNat, Memory.byteAt_add, Memory.byteAt_add, Memory.storeWord, Nat.add_zero,
    m.byteAt_store w (by decide) (by omega) rfl, m.byteAt_store w (by decide) (by omega) rfl]
  exact byteOf_pair_toNat w i

theorem Memory.loadWord_storeByte :
    ((m.storeByte a w).loadWord a).toNat = (m.loadWord a).toNat / 2 ^ 8 * 2 ^ 8 + w.toNat % 2 ^ 8 := by
  have habove (i : Nat) (hi : 1 ≤ i) (hi' : i < 4) := m.byteAt_store_above a w hi hi'
  rw [Memory.loadWord_toNat, Memory.storeByte, m.byteAt_store w (by decide) (by decide) rfl,
    habove 1 (by decide) (by decide), habove 2 (by decide) (by decide), habove 3 (by decide) (by decide),
    byteOf_toNat, Memory.loadWord_toNat]
  omega

theorem Memory.loadWord_storeHalf :
    ((m.storeHalf a w).loadWord a).toNat = (m.loadWord a).toNat / 2 ^ 16 * 2 ^ 16 + w.toNat % 2 ^ 16 := by
  have habove (i : Nat) (hi : 2 ≤ i) (hi' : i < 4) := m.byteAt_store_above a w hi hi'
  have hlow : (byteOf w 0).toNat + (byteOf w 1).toNat * 2 ^ 8 = w.toNat % 2 ^ 16 := by
    simpa using byteOf_pair_toNat w 0
  rw [Memory.loadWord_toNat, Memory.storeHalf, m.byteAt_store w (by decide) (by decide) rfl,
    m.byteAt_store w (by decide) (by decide) rfl, habove 2 (by decide) (by decide),
    habove 3 (by decide) (by decide), Memory.loadWord_toNat]
  omega

end

/-- Settles O29: each byte of the narrower access is a byte of the word, and the bytes above a narrower store are
kept. -/
theorem narrowerAccessesSeeTheBytesOfAWord : Obligations.NarrowerAccessesSeeTheBytesOfAWord :=
  fun m a w _ => ⟨m.loadByte_storeWord a w, m.loadHalf_storeWord a w, m.loadWord_storeByte a w,
    m.loadWord_storeHalf a w⟩

/-! ## Canonical lists -/

theorem cellGet_of_forall_ne {l : List Host.Cell} {k : Nat} (h : ∀ c ∈ l, k ≠ c.1) : cellGet l k = 0#8 := by
  induction l with
  | nil => rfl
  | cons c t ih =>
    rw [cellGet, if_neg (h c List.mem_cons_self)]
    exact ih fun d hd => h d (List.mem_cons_of_mem c hd)

/-- What a rising list without zeros lists is what reads as not 0. -/
theorem mem_cells_iff {l : List Host.Cell} (hrising : l.Pairwise (fun c d => c.1 < d.1))
    (hne : ∀ c ∈ l, c.2 ≠ 0#8) (k : Nat) (v : Byte) : (k, v) ∈ l ↔ v ≠ 0#8 ∧ cellGet l k = v := by
  induction l with
  | nil => exact ⟨nofun, fun h => absurd h.2.symm h.1⟩
  | cons c t ih =>
    obtain ⟨b, w⟩ := c
    obtain ⟨hlt, hrising⟩ := List.pairwise_cons.1 hrising
    have ih := ih hrising fun d hd => hne d (List.mem_cons_of_mem _ hd)
    have hw : w ≠ 0#8 := hne _ List.mem_cons_self
    by_cases hk : k = b
    · subst hk
      have hnot : (k, v) ∉ t := fun hmem => Nat.lt_irrefl k (hlt _ hmem)
      simp only [List.mem_cons, Prod.mk.injEq, hnot, or_false, true_and, cellGet, if_true]
      exact ⟨fun h => ⟨h ▸ hw, h.symm⟩, fun h => h.2.symm⟩
    · simp [cellGet, hk, ih]

/-- Two rising lists without zeros that read alike are equal: they list the same cells in the same order. -/
theorem cells_ext {l l' : List Host.Cell} (hl : l.Pairwise (fun c d => c.1 < d.1)) (hne : ∀ c ∈ l, c.2 ≠ 0#8)
    (hl' : l'.Pairwise (fun c d => c.1 < d.1)) (hne' : ∀ c ∈ l', c.2 ≠ 0#8)
    (hget : ∀ k, cellGet l k = cellGet l' k) : l = l' := by
  have nodup {l : List Host.Cell} (h : l.Pairwise (fun c d => c.1 < d.1)) : l.Nodup :=
    h.imp fun {c d} (hcd : c.1 < d.1) (heq : c = d) => Nat.lt_irrefl d.1 (heq ▸ hcd)
  have hperm : l.Perm l' := (List.perm_ext_iff_of_nodup (nodup hl) (nodup hl')).2 fun ⟨k, v⟩ => by
    rw [mem_cells_iff hl hne, mem_cells_iff hl' hne', hget]
  exact hperm.eq_of_pairwise (fun c d _ _ hcd hdc => absurd hcd (Nat.lt_asymm hdc)) hl hl'

/-- Settles O30: the bytes determine the cells of a canonical list. -/
theorem canonicalMemoriesAreDeterminedByTheirBytes : Obligations.CanonicalMemoriesAreDeterminedByTheirBytes := by
  rintro ⟨c, l⟩ ⟨_, l'⟩ ⟨hl, hne⟩ ⟨hl', hne'⟩ rfl hget
  exact congrArg (Memory.mk c) (cells_ext hl (fun d hd => (hne d hd).2) hl' (fun d hd => (hne' d hd).2) hget)

end Sys2Proof.Machine
end

section
/-! PROOFS. Runs (40_engine_cycle.md R108, R109; 70_reset_and_hazards.md R261, R262) and what the host observes
(60_exceptions.md R238). -/

namespace Sys2Proof.Machine

/-! ## The bounded run -/

theorem State.runUpTo_of_halted {s : State} {reason : HaltReason} (hhalt : s.run = .halted reason) (n : Nat) :
    s.runUpTo n = s := (haltedIsTerminal s reason hhalt).2 n

theorem State.runUpTo_succ {s t : State} (hstep : step s = .next t) (n : Nat) :
    s.runUpTo (n + 1) = t.runUpTo n := by
  simp only [State.runUpTo, (step_cases hstep).1, hstep]

/-- A state is Halted, or Running with a next state. -/
theorem halted_or_step (s : State) : (∃ reason, s.run = .halted reason) ∨ ∃ t, step s = .next t := by
  cases hrun : s.run with
  | running => exact .inr (step_next hrun)
  | halted reason => exact .inl ⟨reason, rfl⟩

theorem State.runUpTo_add (s : State) (m n : Nat) : s.runUpTo (m + n) = (s.runUpTo m).runUpTo n := by
  induction m generalizing s with
  | zero => rw [Nat.zero_add]; rfl
  | succ m ih =>
    rcases halted_or_step s with ⟨reason, hhalt⟩ | ⟨t, hstep⟩
    · simp only [State.runUpTo_of_halted hhalt]
    · rw [Nat.add_right_comm, State.runUpTo_succ hstep, State.runUpTo_succ hstep, ih]

/-- Settles O58: by induction on the length of the first run. -/
theorem runsMayBeSplit : Obligations.RunsMayBeSplit :=
  fun s m n => ⟨rfl, fun _ _ hstep => State.runUpTo_succ hstep n, s.runUpTo_add m n⟩

/-! ## Run to halt -/

section
variable {s t u : State}

theorem runsToHalt_of_halted_iff {reason : HaltReason} (hhalt : s.run = .halted reason) :
    RunsToHalt s u ↔ u = s := by
  constructor
  · rintro (_ | ⟨hstep, -⟩)
    · rfl
    · cases hstep.symm.trans (step_of_halted hhalt)
  · rintro rfl
    exact .ended hhalt

theorem runsToHalt_of_step_iff (hstep : step s = .next t) : RunsToHalt s u ↔ RunsToHalt t u := by
  constructor
  · rintro (hhalt | ⟨hstep', hrest⟩)
    · cases hstep.symm.trans (step_of_halted hhalt)
    · cases hstep.symm.trans hstep'
      exact hrest
  · exact .again hstep

/-- An end is what a bounded run reaches, Halted, with some limit (R109). -/
theorem runsToHalt_iff_runUpTo : RunsToHalt s u ↔ ∃ n reason, s.runUpTo n = u ∧ u.run = .halted reason := by
  constructor
  · intro h
    induction h with
    | @ended s reason hhalt => exact ⟨0, reason, rfl, hhalt⟩
    | again hstep _ ih =>
      obtain ⟨n, reason, hrun, hhalt⟩ := ih
      exact ⟨n + 1, reason, (State.runUpTo_succ hstep n).trans hrun, hhalt⟩
  · rintro ⟨n, reason, hrun, hhalt⟩
    induction n generalizing s with
    | zero => exact hrun ▸ .ended (hrun ▸ hhalt)
    | succ n ih =>
      rcases halted_or_step s with ⟨_, hs⟩ | ⟨t, hstep⟩
      · exact (runsToHalt_of_halted_iff hs).2 (hrun.symm.trans (State.runUpTo_of_halted hs _))
      · exact .again hstep (ih ((State.runUpTo_succ hstep n).symm.trans hrun))

theorem runsToHalt_halted (h : RunsToHalt s u) : ∃ reason, u.run = .halted reason := by
  obtain ⟨-, reason, -, hhalt⟩ := runsToHalt_iff_runUpTo.1 h
  exact ⟨reason, hhalt⟩

theorem runsToHalt_unique {v : State} (hu : RunsToHalt s u) (hv : RunsToHalt s v) : v = u := by
  induction hu with
  | ended hhalt => exact (runsToHalt_of_halted_iff hhalt).1 hv
  | again hstep _ ih => exact ih ((runsToHalt_of_step_iff hstep).1 hv)

/-- A state that is its own next state has no end. -/
theorem not_runsToHalt_of_step_self (hstep : step s = .next s) : ¬ RunsToHalt s u := by
  have hself (n : Nat) : s.runUpTo n = s := by
    induction n with
    | zero => rfl
    | succ n ih => exact (State.runUpTo_succ hstep n).trans ih
  rw [runsToHalt_iff_runUpTo]
  rintro ⟨n, reason, rfl, hhalt⟩
  rw [hself] at hhalt
  cases (step_cases hstep).1.symm.trans hhalt

/-- `jal x0, 0` goes to itself and links nothing (46_jump.md R190; 70_reset_and_hazards.md R262). -/
theorem step_jal_self (hrun : s.run = .running) (hpc : s.pc.toNat % 4 = 0) (hfetch : s.fetch = 0x0000006F#32) :
    step s = .next s := by
  have hdecode : decode s.fetch = .ok (.jal 0 0) := hfetch ▸ rfl
  have htarget : s.jalTarget 0#21 = s.pc := BitVec.add_zero s.pc
  have hexec : exec (.jal 0 0) s = .next (s.linkTo 0#5 (s.jalTarget 0#21)) := rfl
  rw [step_of_decode hrun hpc hdecode, hexec, State.linkTo_zero, htarget]

end

/-- Settles O60: the two rules of the relation read backwards, and a bounded run for every limit. -/
theorem runToHaltRepeatsTheStep : Obligations.RunToHaltRepeatsTheStep :=
  fun _ _ => ⟨fun _ => runsToHalt_of_halted_iff, fun _ _ => runsToHalt_of_step_iff,
    fun h => ⟨runsToHalt_halted h, fun _ => runsToHalt_unique h⟩, runsToHalt_iff_runUpTo,
    fun hrun hpc hfetch => not_runsToHalt_of_step_self (step_jal_self hrun hpc hfetch)⟩

/-! ## What the host observes -/

/-- Settles O59: the list is the registers by index, register 0 reading 0. -/
theorem hostObservesRegistersAndRunState : Obligations.HostObservesRegistersAndRunState := by
  intro s
  have hget (i : Nat) (hi : i < 32) : s.observe.1[i]? = some (s.readReg (BitVec.ofNat 5 i)) := by
    simp [State.observe, hi]
  exact ⟨rfl, by simp [State.observe], (hget 0 (by decide)).trans (congrArg some s.readReg_zero), hget⟩

end Sys2Proof.Machine
end
